-- ==== Sys2Proof/Word.lean ====
section
/-! DEFINITION. The word types of the machine and the three classes of an operand word. -/

namespace Sys2Proof

/-- One byte of a program image (20_memory R34); the core itself has no bytes. -/
abbrev Byte := BitVec 8

/-- A memory cell, an opcode word or an operand word: 16 bits (00_scope R5 `u16`, R4 `WORD_BITS`; 20_memory R31). -/
abbrev Word := BitVec 16

/-- A register, a stack entry or a character code: 15 bits (00_scope R5 `u15`, R4
`VALUE_BITS` and `CHAR_BITS`; 10_state R11, R16, R19). -/
abbrev Value := BitVec 15

/-- A memory address or `pc`: 15 bits (00_scope R4 `ADDR_BITS`; 20_memory R30, 10_state R13). -/
abbrev Addr := BitVec 15

/-- The number of a general register, 0 to 7 (00_scope R4 `NREGS`; 10_state R11). -/
abbrev RegIx := Fin 8

/-- `zext_16`: the word of the same number, bit 15 clear (00_scope R5). -/
def zext16 (v : Value) : Word := v.setWidth 16

/-- `trunc_15`: the low 15 bits (00_scope R5). -/
def trunc15 (w : Word) : Value := w.setWidth 15

/-- An operand word, sorted into the class its number gives it (30_encoding R53). The word of an
invalid operand is kept, because it is harmless until it is used (30_encoding R59 (c)). -/
inductive Operand where
  /-- 0 to 32767: the literal itself. -/
  | lit (v : Value)
  /-- 32768 to 32775: register 0 to 7. -/
  | reg (r : RegIx)
  /-- 32776 to 65535: invalid. -/
  | invalid (w : Word)
deriving DecidableEq, Repr

end Sys2Proof
end

