-- ==== Sys2Proof/Config.lean ====
section
/-! DEFINITION. The parameters of the hardware (00_scope R4): the fixed numbers by name, and the two
that are open, as plain data fixed when the machine is constructed. No value of this machine is left
undefined by the spec, so there is no opaque free value here. -/

namespace Sys2Proof

/-! ### The fixed numbers (00_scope R4)

The types of Word.lean are written with these numbers as numerals, which proofs compute with;
Laws/Params.lean shows that they are the types these names give. `PC_RESET` and `REG_RESET` are the values of
`State.reset` (log 2). `NEWLINE` has no name here: no rule of the core reads it (10_state R21 leaves lines to
the host). -/

/-- `WORD_BITS`: the width of a memory cell, of an opcode word and of an operand word. -/
abbrev Config.wordBits : Nat := 16

/-- `VALUE_BITS`: the width of a register, of a stack entry and of every result. -/
abbrev Config.valueBits : Nat := 15

/-- `CHAR_BITS`: the width of a character code (decision D13 of the spec). -/
abbrev Config.charBits : Nat := 15

/-- `ADDR_BITS`: the width of a memory address and of `pc`. -/
abbrev Config.addrBits : Nat := 15

/-- `MEM_CELLS`: the number of memory cells, 2 to the power `ADDR_BITS` (20_memory R30). -/
abbrev Config.memCells : Nat := 32768

/-- The largest address, `MEM_CELLS - 1` (10_state R15). -/
abbrev Config.maxAddr : Nat := 32767

/-- `MODULUS`: the modulus of every result, 2 to the power `VALUE_BITS`. -/
abbrev Config.modulus : Nat := 32768

/-- The largest number a register holds, `MODULUS - 1` (10_state R11). -/
abbrev Config.maxValue : Nat := 32767

/-- `NREGS`: the number of registers. -/
abbrev Config.numRegs : Nat := 8

/-- `REG_BASE`: the operand word that names register 0. -/
abbrev Config.regBase : Nat := 32768

/-- `REG_TOP`: the operand word that names register 7, `REG_BASE + NREGS - 1`. -/
abbrev Config.regTop : Nat := 32775

/-- `NOPCODES`: opcodes below this number are defined, every other opcode word is illegal. -/
abbrev Config.numOpcodes : Nat := 22

/-- `MAX_ARGS`: the largest operand count. -/
abbrev Config.maxArgs : Nat := 3

/-- `IMAGE_MAX_BYTES`: the length of the largest accepted image, two bytes for each cell. -/
abbrev Config.imageMaxBytes : Nat := 65536

/-! ### The open parameters -/

/-- The debug configuration `TRACE_CFG` (10_state R23 (a), 60_exceptions R141). -/
structure TraceConfig where
  /-- `trace_steps` -/
  steps : Bool
  /-- `trace_memory_writes` -/
  memoryWrites : Bool
  /-- `trace_calls` -/
  calls : Bool
deriving DecidableEq, Repr

/-- What the host fixes at construction and no step changes (log 6). -/
structure Config where
  /-- `STACK_DEPTH`: `none` is unbounded, the default (10_state R17). -/
  stackDepth : Option Nat
  /-- `TRACE_CFG`: read by the debug report only. -/
  trace : TraceConfig
deriving DecidableEq, Repr

/-- The default parameters: unbounded stack (10_state R17); tracing off (DESIGN CHOICE, log 6: the
spec leaves the debug configuration to the host; safe, nothing but the report reads it). -/
def Config.default : Config :=
  { stackDepth := none, trace := { steps := false, memoryWrites := false, calls := false } }

end Sys2Proof
end

