-- ==== Sys2Proof/Syntax.lean ====
section
/-! DEFINITION. The 22 instructions, one constructor per row of the opcode table (30_encoding R58),
with the operand words `a`, `b`, `c` that R56 gives each. -/

namespace Sys2Proof

/-- An instruction with its operand words, classified but not resolved (30_encoding R53, R62). -/
inductive Instr where
  | halt
  | set (a b : Operand)
  | push (a : Operand)
  | pop (a : Operand)
  | eq (a b c : Operand)
  | gt (a b c : Operand)
  | jmp (a : Operand)
  | jt (a b : Operand)
  | jf (a b : Operand)
  | add (a b c : Operand)
  | mult (a b c : Operand)
  | mod (a b c : Operand)
  | and (a b c : Operand)
  | or (a b c : Operand)
  | not (a b : Operand)
  | rmem (a b : Operand)
  | wmem (a b : Operand)
  | call (a : Operand)
  | ret
  | out (a : Operand)
  | in_ (a : Operand)
  | noop
deriving DecidableEq, Repr

end Sys2Proof
end

