-- ==== Sys2Proof/WellFormed.lean ====
section
/-! DEFINITION. Which terms of `Instr` stand for words: an operand marked invalid must carry a word
that R53 calls invalid. -/

namespace Sys2Proof

/-- An operand is the classification of some word: an invalid operand's word lies in 32776 to 65535
(30_encoding R53). A literal and a register reference are well formed by their types. -/
def Operand.wf : Operand → Bool
  | .lit _ => true
  | .reg _ => true
  | .invalid w => decide (Config.regTop < w.toNat)

/-- Every operand of the instruction is well formed. -/
def Instr.wf (i : Instr) : Bool :=
  match i with
  | .halt | .ret | .noop => true
  | .push a | .pop a | .jmp a | .call a | .out a | .in_ a => a.wf
  | .set a b | .jt a b | .jf a b | .not a b | .rmem a b | .wmem a b => a.wf && b.wf
  | .eq a b c | .gt a b c | .add a b c | .mult a b c | .mod a b c | .and a b c | .or a b c =>
    a.wf && b.wf && c.wf

end Sys2Proof
end

