-- ==== Sys2Proof/Decode.lean ====
section
/-! DEFINITION. The decoder, total on any words and on any bytes, rejecting by name; then the encoder.
Both are written from the tables of 30_encoding R52, R53, R57 and R58. -/

namespace Sys2Proof

/-- Why a list of words does not begin with an instruction. That a list can be too short is the decoder's own case:
the fetch gives it all the words it needs (30_encoding R62; log 14). -/
inductive DecodeError where
  /-- There is no opcode word. -/
  | noOpcodeWord
  /-- The opcode word has no table entry (30_encoding R51, R59 (a)). -/
  | illegalOpcode (w : Word)
  /-- Fewer operand words follow than the opcode's count (30_encoding R52). -/
  | missingOperand (needed : Nat)
deriving DecidableEq, Repr

/-- `NARGS`, indexed by opcode (30_encoding R52). -/
def nargsTable : List Nat :=
  [0, 2, 1, 1, 3, 3, 1, 2, 2, 3, 3, 3, 3, 3, 2, 2, 2, 1, 0, 1, 1, 0]

/-- The operand count of an opcode word compared as a whole 16-bit number; `none` where the table has
no entry (30_encoding R51, R60, R64). -/
def nargs? (op : Word) : Option Nat := nargsTable[op.toNat]?

/-- The class of an operand word (30_encoding R53; classified when it is decoded, log 9). -/
def classify (w : Word) : Operand :=
  if w.toNat < Config.regBase then .lit (trunc15 w)
  else if w.toNat ≤ Config.regTop then .reg (Fin.ofNat 8 (w.toNat - Config.regBase))
  else .invalid w

/-- The instruction an opcode selects, given three operands of which it takes its own
(30_encoding R56, R58). -/
def assemble (opcode : Nat) (a b c : Operand) : Option Instr :=
  match opcode with
  | 0 => some .halt
  | 1 => some (.set a b)
  | 2 => some (.push a)
  | 3 => some (.pop a)
  | 4 => some (.eq a b c)
  | 5 => some (.gt a b c)
  | 6 => some (.jmp a)
  | 7 => some (.jt a b)
  | 8 => some (.jf a b)
  | 9 => some (.add a b c)
  | 10 => some (.mult a b c)
  | 11 => some (.mod a b c)
  | 12 => some (.and a b c)
  | 13 => some (.or a b c)
  | 14 => some (.not a b)
  | 15 => some (.rmem a b)
  | 16 => some (.wmem a b)
  | 17 => some (.call a)
  | 18 => some .ret
  | 19 => some (.out a)
  | 20 => some (.in_ a)
  | 21 => some .noop
  | _ => none

/-- The first instruction of a list of words, and the words after it (30_encoding R50). -/
def decode (ws : List Word) : Except DecodeError (Instr × List Word) :=
  match ws with
  | [] => .error .noOpcodeWord
  | op :: rest =>
    match nargs? op with
    | none => .error (.illegalOpcode op)
    | some n =>
      if rest.length < n then .error (.missingOperand n)
      else
        match assemble op.toNat (classify (rest.getD 0 0)) (classify (rest.getD 1 0))
            (classify (rest.getD 2 0)) with
        | none => .error (.illegalOpcode op)
        | some i => .ok (i, rest.drop n)

/-- Bytes grouped pairwise into words, the byte at the even offset the low half
(20_memory R34, 70_reset_and_hazards R151). A dangling last byte has no word. -/
def wordsOfBytes : List Byte → List Word
  | lo :: hi :: rest => (hi ++ lo) :: wordsOfBytes rest
  | _ => []

/-- The first instruction of a byte sequence in the image's byte order. -/
def decodeBytes (bs : List Byte) : Except DecodeError (Instr × List Word) :=
  decode (wordsOfBytes bs)

/-! ### The encoder -/

/-- The word of an operand (30_encoding R53, R57). -/
def Operand.toWord : Operand → Word
  | .lit v => zext16 v
  | .reg r => BitVec.ofNat 16 (Config.regBase + r.val)
  | .invalid w => w

/-- The opcode of an instruction (30_encoding R58). -/
def Instr.opcode : Instr → Word
  | .halt => 0
  | .set _ _ => 1
  | .push _ => 2
  | .pop _ => 3
  | .eq _ _ _ => 4
  | .gt _ _ _ => 5
  | .jmp _ => 6
  | .jt _ _ => 7
  | .jf _ _ => 8
  | .add _ _ _ => 9
  | .mult _ _ _ => 10
  | .mod _ _ _ => 11
  | .and _ _ _ => 12
  | .or _ _ _ => 13
  | .not _ _ => 14
  | .rmem _ _ => 15
  | .wmem _ _ => 16
  | .call _ => 17
  | .ret => 18
  | .out _ => 19
  | .in_ _ => 20
  | .noop => 21

/-- The operands of an instruction in the order `a`, `b`, `c` (30_encoding R50, R57). -/
def Instr.operands : Instr → List Operand
  | .halt | .ret | .noop => []
  | .push a | .pop a | .jmp a | .call a | .out a | .in_ a => [a]
  | .set a b | .jt a b | .jf a b | .not a b | .rmem a b | .wmem a b => [a, b]
  | .eq a b c | .gt a b c | .add a b c | .mult a b c | .mod a b c | .and a b c | .or a b c =>
    [a, b, c]

/-- The words of an instruction: its opcode word, then its operand words (30_encoding R50). -/
def encode (i : Instr) : List Word := i.opcode :: i.operands.map Operand.toWord

/-! ### The host's reading of one row of the opcode table -/

/-- Word `k` of an instruction whose bits are numbered from the first word's bit 0 upward. -/
def tableWord (nbits w k : Nat) : Word := BitVec.ofNat 16 ((w % 2 ^ nbits) >>> (Config.wordBits * k))

/-- The words of such an instruction, up to the longest instruction's four, one and `MAX_ARGS` more
(30_encoding R50); every bit
above `nbits` is 0. -/
def tableWords (nbits w : Nat) : List Word :=
  [tableWord nbits w 0, tableWord nbits w 1, tableWord nbits w 2, tableWord nbits w 3]

/-- The instruction the decoder reads from an instruction whose bits are `w`. -/
def decodeTableWord (nbits w : Nat) : Option Instr :=
  match decode (tableWords nbits w) with
  | .ok (i, _) => some i
  | .error _ => none

end Sys2Proof
end

