-- ==== Sys2Proof/Machine/State.lean ====
section
/-! DEFINITION. The state of the machine as plain data (10_state R10, R20, R21), the reasons a step can
stop, and the state after reset. -/

namespace Sys2Proof.Machine

/-- The fault kinds of 60_exceptions R120, each with the information its `raise` records (advisory, D29
of the spec; log 10). They are recorded in `State.run`: the spec gives fault entry as a change of state (R132),
so no step answers `Host.Outcome.fault` (log 3). -/
inductive Fault where
  /-- Raised by the loader: the image has an odd number of bytes (R130). Safe: the spec's own fault. -/
  | truncatedImage (bytes : Nat)
  /-- Raised by the loader: the image has more than 32768 words (R131). Safe: the spec's own fault. -/
  | imageTooLarge (bytes : Nat)
  /-- Raised by the fetch: the opcode word is above 21 (R121). Safe: the spec's own fault. -/
  | illegalOpcode (w : Word)
  /-- Raised by `resolve`: a value operand word is above 32775 (R122). Safe: the spec's own fault. -/
  | invalidOperand (w : Word)
  /-- Raised by `dst`: a destination operand word names no register (R123). Safe: the spec's own fault. -/
  | invalidDestination (w : Word)
  /-- Raised by the fetch, by falling through and by `call`: the address lies above 32767 (R124). Safe:
  the spec's own fault, which its decision D4 calls erring toward the unprovable. -/
  | addressOutOfRange (address : Nat)
  /-- Raised by `pop` on an empty stack (R125). Safe: the spec's own fault. -/
  | stackUnderflow
  /-- Raised by `mod` with divisor 0 (R126). Safe: the spec's own fault. -/
  | divisionByZero
  /-- Raised by `rmem` of a cell above 32767 (R127). Safe: the spec's own fault (D8). -/
  | valueOutOfRange (address : Addr) (cell : Word)
  /-- Raised by `push` and `call` when a stack of finite capacity is full (R129). Safe: the spec's own
  fault (D12). -/
  | stackOverflow
  /-- Raised by `out` and `in` when the host reports an I/O failure (R128). Safe: the spec's own fault
  (D14). -/
  | environmentFailure
deriving DecidableEq, Repr

/-- Why the model gives an instruction no meaning. -/
inductive Refusal where
  /-- Raised by an arm of `exec` whose instruction has no meaning yet. Safe; in this model no arm does. -/
  | notModelled (mnemonic : String)
deriving DecidableEq, Repr

/-- The run state (10_state R20). -/
inductive RunState where
  | running
  | halted
  | faulted (k : Fault)
deriving DecidableEq, Repr

/-- A line of input: a non-empty sequence of character codes, and nothing more is relied on
(47_out_in R113). -/
structure Line where
  first : Value
  rest : List Value
deriving DecidableEq, Repr

/-- What the host does when asked for a line it does not have (log 5). -/
inductive InputEnd where
  /-- It never supplies one: the `in` waits for ever (47_out_in R114). -/
  | silent
  /-- It reports an I/O failure (47_out_in R116). -/
  | fails
deriving DecidableEq, Repr

/-- Memory: the cells that do not hold 0, by address. An address that is not listed reads 0, which is
what the loader leaves in every cell beyond the image (10_state R24). The unit is the 16-bit cell, since
the core has no bytes (20_memory R30; log 1). -/
abbrev Memory := List (Nat × Word)

/-- The state of the machine and, from `output` on, the host's side of the run (10_state R10, R21). -/
structure State where
  /-- `Mem`: 32768 cells of 16 bits (10_state R18, 20_memory R31). -/
  mem : Memory
  /-- `x[0..7]` (10_state R11). -/
  regs : Vector Value 8
  /-- The address of the next instruction's opcode word (10_state R13). -/
  pc : Addr
  /-- The stack, top first (10_state R16). -/
  stack : List Value
  /-- The input line buffer, next character first (10_state R19). -/
  inbuf : List Value
  /-- The run state (10_state R20). -/
  run : RunState
  /-- The characters emitted so far, oldest first (10_state R21, 47_out_in R112). -/
  output : List Value
  /-- The lines the host will still supply, next line first (10_state R21, 47_out_in R113). -/
  input : List Line
  /-- What the host does once `input` is used up (47_out_in R114, R116; log 5). -/
  inputEnd : InputEnd
  /-- How many more characters the output stream takes before the host reports a failure; `none`: it
  never fails (47_out_in R116; log 5). -/
  outputRoom : Option Nat
  /-- The parameters fixed at construction (00_scope R4; log 6). -/
  cfg : Config
deriving DecidableEq, Repr

/-- The machine right after reset with the empty image, which the loader accepts (70_reset_and_hazards
R151, R154): every cell 0 (R24), `pc` 0 (R25), registers 0 (R26), stack, line buffer and output empty,
`run` Running (R27). The host's side is silent and never fails, the parameters are the defaults
(DESIGN CHOICE, unsafe for claims about runs from this state; log 5, log 6). That `pc` and the registers
start at 0 is decided by the spec itself (D1, D2; log 2); a program is loaded from outside (log 7). -/
def State.reset : State :=
  { mem := []
    regs := Vector.replicate 8 0
    pc := 0
    stack := []
    inbuf := []
    run := .running
    output := []
    input := []
    inputEnd := .silent
    outputRoom := none
    cfg := Config.default }

end Sys2Proof.Machine
end

