-- ==== Sys2Proof/Machine/Ops.lean ====
section
/-! DEFINITION. The named operations over memory, registers, stack, streams and `pc` (00_scope R6), and
what a fault does to the machine (60_exceptions R132). -/

namespace Sys2Proof.Machine

/-! ### Memory (20_memory R31, R32) -/

/-- The cell at an address; an unlisted address reads 0 (10_state R24). -/
def Memory.read (m : Memory) (a : Nat) : Word :=
  match m with
  | [] => 0
  | (b, w) :: rest => if a = b then w else Memory.read rest a

/-- Makes the cell at an address hold a word and changes no other cell. Writing 0 removes the entry, so
that equal memories are equal lists. -/
def Memory.write (m : Memory) (a : Nat) (v : Word) : Memory :=
  match m with
  | [] => if v = 0 then [] else [(a, v)]
  | (b, w) :: rest =>
    if a < b then (if v = 0 then (b, w) :: rest else (a, v) :: (b, w) :: rest)
    else if a = b then (if v = 0 then rest else (a, v) :: rest)
    else (b, w) :: Memory.write rest a v

/-- The canonical form from a least address on: addresses strictly rising and below 32768, no entry
holding 0. -/
def Memory.wfFrom (lo : Nat) : Memory → Bool
  | [] => true
  | (a, w) :: rest => decide (lo ≤ a) && decide (a < Config.memCells) && decide (w ≠ 0) &&
      Memory.wfFrom (a + 1) rest

/-- The canonical form of memory: one list for each contents of the 32768 cells. -/
def Memory.wf (m : Memory) : Bool := Memory.wfFrom 0 m

/-- Words placed at consecutive addresses of an empty memory, in canonical form
(70_reset_and_hazards R151). -/
def Memory.ofWords (base : Nat) : List Word → Memory
  | [] => []
  | w :: rest =>
    if w = 0 then Memory.ofWords (base + 1) rest
    else (base, w) :: Memory.ofWords (base + 1) rest

/-- Words written at consecutive addresses, up to the top of memory. -/
def Memory.storeWords (m : Memory) (a : Nat) : List Word → Memory
  | [] => m
  | w :: rest =>
    if a ≤ Config.maxAddr then Memory.storeWords (m.write a w) (a + 1) rest else m

/-- `MemRead(addr, 1)` (20_memory R32). -/
def State.memRead (s : State) (addr : Addr) : Word := s.mem.read addr.toNat

/-- `MemWrite(addr, 1, v)`: the cell becomes `zext_16(v)` (20_memory R32). -/
def State.memWrite (s : State) (addr : Addr) (v : Value) : State :=
  { s with mem := s.mem.write addr.toNat (zext16 v) }

/-! ### Registers (10_state R11): no register is hard-wired. -/

/-- `x[i]`. -/
def State.getReg (s : State) (r : RegIx) : Value := s.regs[r]

/-- `x[i] <- v`. -/
def State.setReg (s : State) (r : RegIx) (v : Value) : State := { s with regs := s.regs.set r v }

/-! ### Program counter (10_state R13 to R15) -/

/-- `pc <- t`. -/
def State.setPc (s : State) (t : Addr) : State := { s with pc := t }

/-- `npc`, the address after an instruction of `nargs` operand words, which may be 32768
(10_state R14). -/
def State.npc (s : State) (nargs : Nat) : Nat := s.pc.toNat + 1 + nargs

/-- A check of an instruction's pseudocode: raise `k` unless `ok`. -/
def ensure (ok : Bool) (k : Fault) : Except Fault Unit := if ok then .ok () else .error k

/-- `npc` as an address, or the fault `AddressOutOfRange` when it is 32768 (10_state R15; the check of
`Advance()` and of `call`). -/
def State.checkedNpc (s : State) (nargs : Nat) : Except Fault Addr :=
  if Config.maxAddr < s.npc nargs then .error (.addressOutOfRange (s.npc nargs))
  else .ok (BitVec.ofNat 15 (s.npc nargs))

/-! ### Stack (10_state R16, R17) -/

/-- The stack holds `STACK_DEPTH` entries; never so when it is unbounded (10_state R17). -/
def State.stackFull (s : State) : Bool :=
  match s.cfg.stackDepth with
  | none => false
  | some depth => decide (depth ≤ s.stack.length)

/-- `Push(v)`. -/
def State.pushValue (s : State) (v : Value) : State := { s with stack := v :: s.stack }

/-- `Push(v)` with the capacity check of 10_state R17. -/
def State.checkedPush (s : State) (v : Value) : Except Fault State :=
  if s.stackFull then .error .stackOverflow else .ok (s.pushValue v)

/-! ### Character streams (47_out_in R112 to R116) -/

/-- `OutChar(v)`: append to the output; `EnvironmentFailure` if the host's stream takes no more. -/
def State.outChar (s : State) (v : Value) : Except Fault State :=
  match s.outputRoom with
  | none => .ok { s with output := s.output ++ [v] }
  | some 0 => .error .environmentFailure
  | some (room + 1) => .ok { s with output := s.output ++ [v], outputRoom := some room }

/-- What asking for the next input character gives. -/
inductive InputReply where
  /-- A character, with the buffer and the host's lines that remain. -/
  | char (ch : Value) (inbuf : List Value) (input : List Line)
  /-- No line is there and none comes: the step does not happen (47_out_in R114). -/
  | wait
  /-- The host reports a failure (47_out_in R116). -/
  | failure

/-- The next input character: from the buffer, which a whole line fills when it is empty; the host is
asked only then (47_out_in R111, R113; log 13). -/
def State.nextChar (s : State) : InputReply :=
  match s.inbuf with
  | ch :: rest => .char ch rest s.input
  | [] =>
    match s.input with
    | line :: lines => .char line.first line.rest lines
    | [] =>
      match s.inputEnd with
      | .silent => .wait
      | .fails => .failure

/-! ### Run state, and what a fault does -/

/-- `run <- Halted; pc <- npc mod 32768`, for an instruction without operands (10_state R15 (d),
40_halt_noop R70). -/
def State.halt (s : State) : State :=
  { s with run := .halted, pc := BitVec.ofNat 15 (s.npc 0) }

/-- Fault entry: nothing of the step commits, `pc` stays, `run` becomes `Faulted(k)`
(60_exceptions R132). Nothing is saved and there is no handler (R134); there is no return from a fault
(R135), so no operation undoes this one. -/
def State.raise (s : State) (k : Fault) : State := { s with run := .faulted k }

/-- The end of a step: all effects of the pseudocode together, or the fault it raised
(30_encoding R62 step 6). -/
def State.commit (s : State) (r : Except Fault State) : Host.Outcome State Fault Refusal :=
  match r with
  | .ok t => .next t
  | .error k => .next (s.raise k)

end Sys2Proof.Machine
end

