-- ==== Sys2Proof/Machine/Operands.lean ====
section
/-! DEFINITION. The two decodings of an operand word: `resolve` for a value operand (30_encoding R54) and
`dst` for a destination operand (30_encoding R55), and the shapes of instruction that share them. -/

namespace Sys2Proof.Machine

/-- `resolve(w)`: a literal is its own value, a register reference gives the register's content
(30_encoding R54). -/
def State.resolve (s : State) (o : Operand) : Except Fault Value :=
  match o with
  | .lit v => .ok v
  | .reg r => .ok (s.getReg r)
  | .invalid w => .error (.invalidOperand w)

/-- `dst(w)`: only a register reference names a destination, and it is never resolved
(30_encoding R55). -/
def dst (o : Operand) : Except Fault RegIx :=
  match o with
  | .reg r => .ok r
  | .lit v => .error (.invalidDestination (zext16 v))
  | .invalid w => .error (.invalidDestination w)

/-- The pseudocode shared by the instructions of format `F2DV` that compute one value from one
(41_set_push_pop R75, 44_alu R95). -/
def State.unary (s : State) (f : Value → Value) (a b : Operand) : Except Fault State := do
  let d ← dst a
  let vb ← s.resolve b
  let npc ← s.checkedNpc 2
  pure ((s.setReg d (f vb)).setPc npc)

/-- The pseudocode shared by the instructions of format `F3DVV` that cannot fail on their values
(42_eq_gt R80, R81; 44_alu R90, R91, R93, R94). -/
def State.binary (s : State) (f : Value → Value → Value) (a b c : Operand) : Except Fault State := do
  let d ← dst a
  let vb ← s.resolve b
  let vc ← s.resolve c
  let npc ← s.checkedNpc 3
  pure ((s.setReg d (f vb vc)).setPc npc)

end Sys2Proof.Machine
end

