-- ==== Sys2Proof/Machine/Alu.lean ====
section
/-! DEFINITION. `add`, `mult`, `mod`, `and`, `or` and `not` (44_alu). Numbers are computed exactly;
the sum and the product are reduced modulo `MODULUS` at the end, as the pseudocode does (R98). -/

namespace Sys2Proof.Machine

/-- A natural number reduced modulo `MODULUS` (R90, R91). -/
def reduce (n : Nat) : Value := BitVec.ofNat 15 (n % Config.modulus)

/-- `add a b c` (R90). -/
def execAdd (a b c : Operand) (s : State) : Host.Outcome State Fault Refusal :=
  s.commit (s.binary (fun vb vc => reduce (vb.toNat + vc.toNat)) a b c)

/-- `mult a b c` (R91). -/
def execMult (a b c : Operand) (s : State) : Host.Outcome State Fault Refusal :=
  s.commit (s.binary (fun vb vc => reduce (vb.toNat * vc.toNat)) a b c)

/-- `mod a b c`: the divisor is tested before the top of memory is; a remainder needs no reduction (R92). -/
def execMod (a b c : Operand) (s : State) : Host.Outcome State Fault Refusal :=
  s.commit do
    let d ← dst a
    let vb ← s.resolve b
    let vc ← s.resolve c
    ensure (decide (vc ≠ 0)) .divisionByZero
    let npc ← s.checkedNpc 3
    pure ((s.setReg d (BitVec.ofNat 15 (vb.toNat % vc.toNat))).setPc npc)

/-- `and a b c` (R93). -/
def execAnd (a b c : Operand) (s : State) : Host.Outcome State Fault Refusal :=
  s.commit (s.binary (fun vb vc => vb &&& vc) a b c)

/-- `or a b c` (R94). -/
def execOr (a b c : Operand) (s : State) : Host.Outcome State Fault Refusal :=
  s.commit (s.binary (fun vb vc => vb ||| vc) a b c)

/-- `not a b`: the 15-bit complement (R95). -/
def execNot (a b : Operand) (s : State) : Host.Outcome State Fault Refusal :=
  s.commit (s.unary (fun vb => BitVec.ofNat 15 (Config.maxValue - vb.toNat)) a b)

end Sys2Proof.Machine
end

