-- ==== Sys2Proof/Machine/CharIO.lean ====
section
/-! DEFINITION. `out` and `in` (47_out_in). -/

namespace Sys2Proof.Machine

/-- `out a` (R110). -/
def execOut (a : Operand) (s : State) : Host.Outcome State Fault Refusal :=
  s.commit do
    let v ← s.resolve a
    let npc ← s.checkedNpc 1
    let t ← s.outChar v
    pure (t.setPc npc)

/-- `in a`: the destination and the top of memory are checked before any input is asked for (R111). While
no line comes the step does not happen and no state changes (R114; log 4). -/
def execIn (a : Operand) (s : State) : Host.Outcome State Fault Refusal :=
  s.commit do
    let d ← dst a
    let npc ← s.checkedNpc 1
    match s.nextChar with
    | .char ch buffer lines =>
      pure (({ s with inbuf := buffer, input := lines }.setReg d ch).setPc npc)
    | .wait => pure s
    | .failure => .error .environmentFailure

end Sys2Proof.Machine
end

