-- ==== Sys2Proof/Machine/Flags.lean ====
section
/-! DEFINITION. The machine has no flags and no condition codes (10_state R22). What stands in their
place: the 0 or 1 a comparison writes into a register, and the test of a value for zero that a
conditional jump makes. -/

namespace Sys2Proof.Machine

/-- The result of a comparison, 1 or 0 (10_state R22, 42_eq_gt R80, R81). -/
def truthValue (p : Bool) : Value := if p then 1 else 0

/-- The test of `jt` and `jf` (10_state R22, 43_jmp_jt_jf R86, R87). -/
def isNonzero (v : Value) : Bool := decide (v ≠ 0)

end Sys2Proof.Machine
end

