-- ==== Sys2Proof/Machine/Compare.lean ====
section
/-! DEFINITION. `eq` and `gt` (42_eq_gt). -/

namespace Sys2Proof.Machine

/-- `eq a b c` (R80). -/
def execEq (a b c : Operand) (s : State) : Host.Outcome State Fault Refusal :=
  s.commit (s.binary (fun vb vc => truthValue (decide (vb = vc))) a b c)

/-- `gt a b c`: unsigned, strict (R81). -/
def execGt (a b c : Operand) (s : State) : Host.Outcome State Fault Refusal :=
  s.commit (s.binary (fun vb vc => truthValue (decide (vc.toNat < vb.toNat))) a b c)

end Sys2Proof.Machine
end

