-- ==== Sys2Proof/Machine/Data.lean ====
section
/-! DEFINITION. `set`, `push` and `pop` (41_set_push_pop). -/

namespace Sys2Proof.Machine

/-- `set a b` (R75). -/
def execSet (a b : Operand) (s : State) : Host.Outcome State Fault Refusal :=
  s.commit (s.unary (fun v => v) a b)

/-- `push a` (R76). -/
def execPush (a : Operand) (s : State) : Host.Outcome State Fault Refusal :=
  s.commit do
    let v ← s.resolve a
    let npc ← s.checkedNpc 1
    let t ← s.checkedPush v
    pure (t.setPc npc)

/-- `pop a` (R77). -/
def execPop (a : Operand) (s : State) : Host.Outcome State Fault Refusal :=
  s.commit do
    let d ← dst a
    match s.stack with
    | [] => .error .stackUnderflow
    | v :: rest =>
      let npc ← s.checkedNpc 1
      pure (({ s with stack := rest }.setReg d v).setPc npc)

end Sys2Proof.Machine
end

