-- ==== Sys2Proof/Machine/Jump.lean ====
section
/-! DEFINITION. `jmp`, `jt` and `jf` (43_jmp_jt_jf). -/

namespace Sys2Proof.Machine

/-- A jump to the resolved operand; `npc` is not used (R85). -/
def State.jumpTo (s : State) (target : Operand) : Except Fault State := do
  let t ← s.resolve target
  pure (s.setPc t)

/-- A conditional jump of two operand words: the target is resolved only when it is taken (R86, R87). -/
def State.jumpIf (s : State) (taken : Value → Bool) (a b : Operand) : Except Fault State := do
  let va ← s.resolve a
  if taken va then s.jumpTo b
  else
    let npc ← s.checkedNpc 2
    pure (s.setPc npc)

/-- `jmp a` (R85). -/
def execJmp (a : Operand) (s : State) : Host.Outcome State Fault Refusal := s.commit (s.jumpTo a)

/-- `jt a b` (R86). -/
def execJt (a b : Operand) (s : State) : Host.Outcome State Fault Refusal :=
  s.commit (s.jumpIf isNonzero a b)

/-- `jf a b` (R87). -/
def execJf (a b : Operand) (s : State) : Host.Outcome State Fault Refusal :=
  s.commit (s.jumpIf (fun v => !isNonzero v) a b)

end Sys2Proof.Machine
end

