-- ==== Sys2Proof/Machine/MemAccess.lean ====
section
/-! DEFINITION. `rmem` and `wmem` (45_rmem_wmem). The effective address is the resolved operand and there
is no other addressing mode (R102). -/

namespace Sys2Proof.Machine

/-- `rmem a b`: a cell above 32767 does not fit a register and faults (R100). -/
def execRmem (a b : Operand) (s : State) : Host.Outcome State Fault Refusal :=
  s.commit do
    let d ← dst a
    let addr ← s.resolve b
    ensure (decide ((s.memRead addr).toNat ≤ Config.maxValue))
      (.valueOutOfRange addr (s.memRead addr))
    let npc ← s.checkedNpc 2
    pure ((s.setReg d (trunc15 (s.memRead addr))).setPc npc)

/-- `wmem a b`: both operands are values (R101). -/
def execWmem (a b : Operand) (s : State) : Host.Outcome State Fault Refusal :=
  s.commit do
    let addr ← s.resolve a
    let v ← s.resolve b
    let npc ← s.checkedNpc 2
    pure ((s.memWrite addr v).setPc npc)

end Sys2Proof.Machine
end

