-- ==== Sys2Proof/Machine/Subroutine.lean ====
section
/-! DEFINITION. `call` and `ret` (46_call_ret). -/

namespace Sys2Proof.Machine

/-- `call a`: the return address must be a 15-bit address (R105). -/
def execCall (a : Operand) (s : State) : Host.Outcome State Fault Refusal :=
  s.commit do
    let t ← s.resolve a
    let npc ← s.checkedNpc 1
    let u ← s.checkedPush npc
    pure (u.setPc t)

/-- `ret`: an empty stack halts the run (R106). -/
def execRet (s : State) : Host.Outcome State Fault Refusal :=
  match s.stack with
  | [] => .next s.halt
  | t :: rest => .next ({ s with stack := rest }.setPc t)

end Sys2Proof.Machine
end

