-- ==== Sys2Proof/Machine/System.lean ====
section
/-! DEFINITION. `halt` and `noop` (40_halt_noop). -/

namespace Sys2Proof.Machine

/-- `halt`: the run ends (R70). -/
def execHalt (s : State) : Host.Outcome State Fault Refusal := .next s.halt

/-- `noop`: nothing but `pc` changes (R71). -/
def execNoop (s : State) : Host.Outcome State Fault Refusal :=
  s.commit do
    let npc ← s.checkedNpc 0
    pure (s.setPc npc)

end Sys2Proof.Machine
end

