-- ==== Sys2Proof/Machine/Fetch.lean ====
section
/-! DEFINITION. The fetch: steps 1 to 4 of 30_encoding R62. -/

namespace Sys2Proof.Machine

/-- The `n` words at consecutive addresses from `a` on. -/
def State.wordsAt (s : State) (a : Nat) : Nat → List Word
  | 0 => []
  | n + 1 => s.mem.read a :: s.wordsAt (a + 1) n

/-- The instruction at `pc`, with its operand words, or the fault of the fetch: an opcode word without a
table entry first, then an operand word beyond address 32767 (30_encoding R62 steps 2 and 3). -/
def State.fetch (s : State) : Except Fault Instr :=
  match nargs? (s.memRead s.pc) with
  | none => .error (.illegalOpcode (s.memRead s.pc))
  | some n =>
    if Config.maxAddr < s.pc.toNat + n then .error (.addressOutOfRange (s.pc.toNat + n))
    else
      match decode (s.wordsAt s.pc.toNat (n + 1)) with
      | .ok (i, _) => .ok i
      | .error _ => .error (.illegalOpcode (s.memRead s.pc))

end Sys2Proof.Machine
end

