-- ==== Sys2Proof/Machine/Step.lean ====
section
/-! DEFINITION. One step of the engine (30_encoding R62), and how the host places one instruction where
the next step fetches. -/

namespace Sys2Proof.Machine

/-- One step. While `run` is Running the instruction at `pc` is fetched and executed, and a fault of the
fetch commits nothing. In `Halted` and `Faulted` no further step is taken and no state changes
(10_state R20): the answer is the same state again (log 4). `exec` itself does not test `run` (log 8). -/
def step (s : State) : Host.Outcome State Fault Refusal :=
  match s.run with
  | .running =>
    match s.fetch with
    | .ok i => exec i s
    | .error k => .next (s.raise k)
  | .halted => .next s
  | .faulted _ => .next s

/-- `s` with the words of one instruction at `pc`, where the next step fetches, and Running (log 7). -/
def State.withFetchWord (s : State) (nbits w : Nat) : State :=
  { s with mem := s.mem.storeWords s.pc.toNat (tableWords nbits w), run := .running }

end Sys2Proof.Machine
end

