-- ==== Sys2Proof/Machine/Loader.lean ====
section
/-! DEFINITION. Reset as the construction of an engine around a program image: the loader and the reset
sequence (70_reset_and_hazards R150 to R154). -/

namespace Sys2Proof.Machine

/-- `Load(bytes)`: little-endian pairs at consecutive addresses from 0 on, every other cell 0; oddness is
checked before size, and the size against `IMAGE_MAX_BYTES` (R151, R152). The words are neither checked nor
reduced. -/
def load (bytes : List Byte) : Except Fault Memory :=
  if bytes.length % 2 = 1 then .error (.truncatedImage bytes.length)
  else if Config.imageMaxBytes < bytes.length then .error (.imageTooLarge bytes.length)
  else .ok (Memory.ofWords 0 (wordsOfBytes bytes))

/-- The reset sequence (R154) for an image, the parameters, the registers' reset values (`REG_RESET`,
10_state R26; all zero is the spec's own choice) and what the host will do (10_state R21). After a loader
error no step is ever taken (R153); the rest of the state is then at its reset values with memory all
zero (log 12). -/
def State.construct (image : List Byte) (cfg : Config) (regReset : Vector Value 8)
    (input : List Line) (inputEnd : InputEnd) (outputRoom : Option Nat) : State :=
  { mem := match load image with
      | .ok m => m
      | .error _ => []
    regs := regReset
    pc := 0
    stack := []
    inbuf := []
    run := match load image with
      | .ok _ => .running
      | .error k => .faulted k
    output := []
    input := input
    inputEnd := inputEnd
    outputRoom := outputRoom
    cfg := cfg }

end Sys2Proof.Machine
end

