-- ==== Sys2Proof/Machine/Trace.lean ====
section
/-! DEFINITION. The debug report to the host (60_exceptions R141): its content as data. It is a function
of the state before a step, and no step reads it (log 11). -/

namespace Sys2Proof

/-- The opcode name of an instruction (30_encoding R58). -/
def Instr.mnemonic : Instr → String
  | .halt => "halt"
  | .set _ _ => "set"
  | .push _ => "push"
  | .pop _ => "pop"
  | .eq _ _ _ => "eq"
  | .gt _ _ _ => "gt"
  | .jmp _ => "jmp"
  | .jt _ _ => "jt"
  | .jf _ _ => "jf"
  | .add _ _ _ => "add"
  | .mult _ _ _ => "mult"
  | .mod _ _ _ => "mod"
  | .and _ _ _ => "and"
  | .or _ _ _ => "or"
  | .not _ _ => "not"
  | .rmem _ _ => "rmem"
  | .wmem _ _ => "wmem"
  | .call _ => "call"
  | .ret => "ret"
  | .out _ => "out"
  | .in_ _ => "in"
  | .noop => "noop"

namespace Machine

/-- One item of the report. -/
inductive Report where
  /-- `trace_steps`: the opcode name, the raw operand words, `pc` and the stack, before the step. -/
  | step (name : String) (args : List Word) (pc : Addr) (stack : List Value)
  /-- `trace_memory_writes`: the address and the value a `wmem` writes. -/
  | memoryWrite (addr : Addr) (v : Value)
  /-- `trace_calls`: the target of a `call`. -/
  | callTo (t : Addr)
  /-- `trace_calls`: the target of a `ret`. -/
  | returnTo (t : Addr)
deriving DecidableEq, Repr

/-- The instruction completes and the run goes on; a waiting `in`, which has no details to report, counts too. -/
def State.completes (s : State) (i : Instr) : Bool :=
  match exec i s with
  | .next t => decide (t.run = .running)
  | .fault _ => false
  | .refused _ => false

/-- The details of an instruction that completes: its memory write, its call or its return target. -/
def State.details (s : State) (i : Instr) : List Report :=
  match i with
  | .wmem a b =>
    match s.cfg.trace.memoryWrites, s.resolve a, s.resolve b with
    | true, .ok addr, .ok v => [.memoryWrite addr v]
    | _, _, _ => []
  | .call a =>
    match s.cfg.trace.calls, s.resolve a with
    | true, .ok t => [.callTo t]
    | _, _ => []
  | .ret =>
    match s.cfg.trace.calls, s.stack with
    | true, t :: _ => [.returnTo t]
    | _, _ => []
  | .halt | .set _ _ | .push _ | .pop _ | .eq _ _ _ | .gt _ _ _ | .jmp _ | .jt _ _ | .jf _ _
  | .add _ _ _ | .mult _ _ _ | .mod _ _ _ | .and _ _ _ | .or _ _ _ | .not _ _ | .rmem _ _
  | .out _ | .in_ _ | .noop => []

/-- What the core reports about the step from `s`, as the configuration asks: nothing when the run has ended or the
fetch faults. An `in` that waits for a line has been fetched, so `trace_steps` reports it although its step is not
taken (47_out_in R114), and again at every call of `step` until a line comes. The spec does not say what `TRACE`
shows during the wait (10_state R29, 60_exceptions R141): this is a DESIGN CHOICE, safe (log 11). -/
def State.report (s : State) : List Report :=
  match s.run, s.fetch with
  | .running, .ok i =>
    (if s.cfg.trace.steps then [.step i.mnemonic (i.operands.map Operand.toWord) s.pc s.stack]
      else []) ++
    (if s.completes i then s.details i else [])
  | _, _ => []

end Machine
end Sys2Proof
end

