-- ==== Sys2Proof/Machine/HostPort.lean ====
section
/-! DEFINITION. What the host sees of the core and does to it between steps (10_state R29): the `STATUS`
interface and the supply of a line. -/

namespace Sys2Proof.Machine

/-- The numeric code of a fault on the `STATUS` interface (60_exceptions R120, the spec's own numbers). -/
def Fault.code : Fault → Nat
  | .truncatedImage _ => 1
  | .imageTooLarge _ => 2
  | .illegalOpcode _ => 3
  | .invalidOperand _ => 4
  | .invalidDestination _ => 5
  | .addressOutOfRange _ => 6
  | .stackUnderflow => 7
  | .divisionByZero => 8
  | .valueOutOfRange _ _ => 9
  | .stackOverflow => 10
  | .environmentFailure => 11

/-- The code `STATUS` shows: 0 means no fault (60_exceptions R120). -/
def State.statusCode (s : State) : Nat :=
  match s.run with
  | .running => 0
  | .halted => 0
  | .faulted k => k.code

/-- The host supplies one more line (47_out_in R113, R114): the only thing it can do to a running core
(10_state R29). It may be before or while an `in` waits. -/
def State.supplyLine (s : State) (line : Line) : State := { s with input := s.input ++ [line] }

/-- The characters still to be delivered, in order: the rest of the current line, then the host's lines
(10_state R19). -/
def State.pendingInput (s : State) : List Value :=
  s.inbuf ++ s.input.flatMap fun line => line.first :: line.rest

end Sys2Proof.Machine
end

