-- ==== Sys2Proof/Safety.lean ====
section
/-! DEFINITION. What a run is and what counts as a safe one (70_reset_and_hazards R156, R157), and the
invariant of the machine's state. -/

namespace Sys2Proof.Machine

/-- The state a step answers. Every step of this machine answers a next state; the other two outcomes
would leave the state as it is. -/
def State.after (s : State) : State :=
  match step s with
  | .next t => t
  | .fault _ => s
  | .refused _ => s

/-- The state after `k` steps. -/
def State.runFor (s : State) : Nat → State
  | 0 => s
  | k + 1 => s.after.runFor k

/-- An `in` that needs a line the host does not have: the core is stuck, neither Halted nor Faulted
(47_out_in R114). -/
def State.waiting (s : State) : Bool :=
  match s.run, s.fetch with
  | .running, .ok (.in_ (.reg _)) =>
    decide (s.npc 1 ≤ Config.maxAddr) && s.inbuf.isEmpty && s.input.isEmpty &&
      decide (s.inputEnd = .silent)
  | _, _ => false

/-- The run ends normally: Halted after some number of steps (R157 (a)). -/
def State.Halts (s : State) : Prop := ∃ k, (s.runFor k).run = .halted

/-- A well-formed program's run: no step faults (R156, R157 (b)). -/
def State.NeverFaults (s : State) : Prop := ∀ k f, (s.runFor k).run ≠ .faulted f

/-- What every state of a run satisfies: memory is in canonical form (log 1), and a stack of finite
capacity holds no more than it may (10_state R17). The 15-bit bounds of 10_state R28 hold by the fields' types. -/
structure State.Inv (s : State) : Prop where
  memory : s.mem.wf = true
  stack : ∀ depth, s.cfg.stackDepth = some depth → s.stack.length ≤ depth

end Sys2Proof.Machine
end

