-- ==== Sys2Proof/Certificates/Slice0/Obligations.lean ====
section
/-! DEFINITION. The statements for the provers, from the numbered rules of spec/. -/

namespace Sys2Proof.Claims

open Sys2Proof.Machine

/-! ### The words the statements are written in -/

/-- A value operand stands for `v`: it is the literal `v`, or it names a register that holds `v`
(30_encoding R54, said without the model's `resolve`). -/
abbrev Denotes (s : State) (o : Operand) (v : Value) : Prop :=
  o = .lit v ∨ ∃ r : RegIx, o = .reg r ∧ s.regs[r] = v

/-- An operand that names no register. -/
abbrev NotRegister (o : Operand) : Prop := ∀ r : RegIx, o ≠ .reg r

/-- The instruction faults with `k`: no effect but the run state (60_exceptions R132). It speaks of the whole state
at the end of the run (log 15). -/
def Faults (i : Instr) (s : State) (k : Fault) : Prop := exec i s = .next { s with run := .faulted k }

/-- The stack may take one more entry: it is unbounded, or it holds fewer than `STACK_DEPTH`. -/
abbrev StackHasRoom (s : State) : Prop := ∀ depth ∈ s.cfg.stackDepth, s.stack.length < depth

/-- The rule of an instruction `op a b` of format `F2DV` that writes `f` of its value: encoding, faults in
the order they are checked, effect and frame. -/
def UnaryRule (mk : Operand → Operand → Instr) (op : Word) (f : Nat → Nat) : Prop :=
  ∀ (s : State) (a b : Operand),
    encode (mk a b) = [op, a.toWord, b.toWord] ∧
    (NotRegister a → Faults (mk a b) s (.invalidDestination a.toWord)) ∧
    (∀ d w, a = .reg d → b = .invalid w → Faults (mk a b) s (.invalidOperand w)) ∧
    (∀ d v, a = .reg d → Denotes s b v → 32767 < s.pc.toNat + 3 →
      Faults (mk a b) s (.addressOutOfRange (s.pc.toNat + 3))) ∧
    (∀ d v, a = .reg d → Denotes s b v → s.pc.toNat + 3 ≤ 32767 →
      exec (mk a b) s = .next { s with
        regs := s.regs.set d (BitVec.ofNat 15 (f v.toNat))
        pc := BitVec.ofNat 15 (s.pc.toNat + 3) })

/-- The rule of an instruction `op a b c` of format `F3DVV` that writes `f` of its two values: encoding,
faults in the order they are checked, effect and frame. -/
def BinaryRule (mk : Operand → Operand → Operand → Instr) (op : Word) (f : Nat → Nat → Nat) : Prop :=
  ∀ (s : State) (a b c : Operand),
    encode (mk a b c) = [op, a.toWord, b.toWord, c.toWord] ∧
    (NotRegister a → Faults (mk a b c) s (.invalidDestination a.toWord)) ∧
    (∀ d w, a = .reg d → b = .invalid w → Faults (mk a b c) s (.invalidOperand w)) ∧
    (∀ d vb w, a = .reg d → Denotes s b vb → c = .invalid w →
      Faults (mk a b c) s (.invalidOperand w)) ∧
    (∀ d vb vc, a = .reg d → Denotes s b vb → Denotes s c vc → 32767 < s.pc.toNat + 4 →
      Faults (mk a b c) s (.addressOutOfRange (s.pc.toNat + 4))) ∧
    (∀ d vb vc, a = .reg d → Denotes s b vb → Denotes s c vc → s.pc.toNat + 4 ≤ 32767 →
      exec (mk a b c) s = .next { s with
        regs := s.regs.set d (BitVec.ofNat 15 (f vb.toNat vc.toNat))
        pc := BitVec.ofNat 15 (s.pc.toNat + 4) })

/-- The rule of a conditional jump that is taken when the condition's value satisfies `taken`. -/
def BranchRule (mk : Operand → Operand → Instr) (op : Word) (taken : Nat → Prop) : Prop :=
  ∀ (s : State) (a b : Operand),
    encode (mk a b) = [op, a.toWord, b.toWord] ∧
    (∀ w, a = .invalid w → Faults (mk a b) s (.invalidOperand w)) ∧
    (∀ v w, Denotes s a v → taken v.toNat → b = .invalid w →
      Faults (mk a b) s (.invalidOperand w)) ∧
    (∀ v t, Denotes s a v → taken v.toNat → Denotes s b t →
      exec (mk a b) s = .next { s with pc := t }) ∧
    (∀ v, Denotes s a v → ¬ taken v.toNat → 32767 < s.pc.toNat + 3 →
      Faults (mk a b) s (.addressOutOfRange (s.pc.toNat + 3))) ∧
    (∀ v, Denotes s a v → ¬ taken v.toNat → s.pc.toNat + 3 ≤ 32767 →
      exec (mk a b) s = .next { s with pc := BitVec.ofNat 15 (s.pc.toNat + 3) })

/-- The destination operand of the 12 instructions that have one (10_state R12, 30_encoding R56). -/
def destinationOperand : Instr → Option Operand
  | .set a _ | .pop a | .eq a _ _ | .gt a _ _ | .add a _ _ | .mult a _ _ | .mod a _ _ | .and a _ _
  | .or a _ _ | .not a _ | .rmem a _ | .in_ a => some a
  | .halt | .push _ | .jmp _ | .jt _ _ | .jf _ _ | .wmem _ _ | .call _ | .ret | .out _ | .noop => none

/-- The value operands of an instruction (10_state R12, 30_encoding R56). -/
def valueOperands : Instr → List Operand
  | .halt | .pop _ | .ret | .in_ _ | .noop => []
  | .set _ b | .not _ b | .rmem _ b => [b]
  | .push a | .jmp a | .call a | .out a => [a]
  | .eq _ b c | .gt _ b c | .add _ b c | .mult _ b c | .mod _ b c | .and _ b c | .or _ b c => [b, c]
  | .jt a b | .jf a b | .wmem a b => [a, b]

/-- The matrix of 60_exceptions R144, without its fetch column: which fault an instruction can raise once
its words are fetched. -/
def canRaise (i : Instr) : Fault → Bool
  | .truncatedImage _ | .imageTooLarge _ | .illegalOpcode _ => false
  | .invalidDestination _ => (destinationOperand i).isSome
  | .invalidOperand _ => !(valueOperands i).isEmpty
  | .stackUnderflow => match i with
    | .pop _ => true
    | _ => false
  | .divisionByZero => match i with
    | .mod _ _ _ => true
    | _ => false
  | .valueOutOfRange _ _ => match i with
    | .rmem _ _ => true
    | _ => false
  | .addressOutOfRange _ => match i with
    | .halt | .jmp _ | .ret => false
    | _ => true
  | .stackOverflow => match i with
    | .push _ | .call _ => true
    | _ => false
  | .environmentFailure => match i with
    | .out _ | .in_ _ => true
    | _ => false

end Sys2Proof.Claims

section

open Sys2Proof Sys2Proof.Machine Sys2Proof.Claims

/-! ### Encoding -/

/-- Words written out from the encodings of 30_encoding R57 and R58 decode to the instructions they stand
for, one of each family at least. -/
def Obligations.SpecWordsDecode : Prop :=
  decode [0] = .ok (.halt, []) ∧
  decode [21] = .ok (.noop, []) ∧
  decode [1, 0x8001, 42] = .ok (.set (.reg 1) (.lit 42), []) ∧
  decode [2, 0x8002] = .ok (.push (.reg 2), []) ∧
  decode [3, 0x8007, 9] = .ok (.pop (.reg 7), [9]) ∧
  decode [4, 0x8000, 0x8001, 9] = .ok (.eq (.reg 0) (.reg 1) (.lit 9), []) ∧
  decode [8, 0x7FFF, 0x9C40] = .ok (.jf (.lit 32767) (.invalid 40000), []) ∧
  decode [9, 0x8000, 0x8000, 1] = .ok (.add (.reg 0) (.reg 0) (.lit 1), []) ∧
  decode [16, 500, 0x8003] = .ok (.wmem (.lit 500) (.reg 3), []) ∧
  decode [17, 11] = .ok (.call (.lit 11), []) ∧
  decode [20, 0x8008] = .ok (.in_ (.invalid 0x8008), []) ∧
  decode [22, 0, 0, 0] = .error (.illegalOpcode 22)

/-- Decoding the words of any well-formed instruction gives it back, whatever words follow: every operand
at every value the encoding admits (30_encoding R50, R57, R58). -/
def Obligations.DecodeOfEncode : Prop :=
  ∀ (i : Instr) (rest : List Word), i.wf = true → decode (encode i ++ rest) = .ok (i, rest)

/-- What the decoder reads is well formed and stands for exactly the words it took: no bit of any word is
ignored (30_encoding R51, R53). -/
def Obligations.EncodeOfDecode : Prop :=
  ∀ (ws rest : List Word) (i : Instr), decode ws = .ok (i, rest) → i.wf = true ∧ encode i ++ rest = ws

/-- R52, 30_encoding R50: the operand count is fixed by the opcode word alone, by the table; the operand words
are the next ones. That the decoder classifies them when it reads them, and that it rejects a list that is too
short by the name `missingOperand`, are its own choices (log 9, log 14). -/
def Obligations.OperandCountsAreTheTable : Prop :=
  ∀ (op : Word) (rest : List Word) (n : Nat),
    [0, 2, 1, 1, 3, 3, 1, 2, 2, 3, 3, 3, 3, 3, 2, 2, 2, 1, 0, 1, 1, 0][op.toNat]? = some n →
    (n ≤ rest.length → ∃ i : Instr, decode (op :: rest) = .ok (i, rest.drop n) ∧
      i.opcode = op ∧ i.operands = (rest.take n).map classify) ∧
    (rest.length < n → decode (op :: rest) = .error (.missingOperand n))

/-- R53: an operand word belongs to exactly one of three classes, by its numeric value. -/
def Obligations.OperandWordClasses : Prop :=
  ∀ w : Word,
    (w.toNat ≤ 32767 ↔ ∃ v : Value, classify w = .lit v ∧ v.toNat = w.toNat) ∧
    (32768 ≤ w.toNat ∧ w.toNat ≤ 32775 ↔
      ∃ r : RegIx, classify w = .reg r ∧ r.val = w.toNat - 32768) ∧
    (32776 ≤ w.toNat ↔ classify w = .invalid w)

/-- R54: `resolve` of the word of an operand. -/
def Obligations.ResolveOfWord : Prop :=
  ∀ (s : State) (w : Word),
    (w.toNat < 32768 → ∃ v : Value, v.toNat = w.toNat ∧ s.resolve (classify w) = .ok v) ∧
    (∀ r : RegIx, w.toNat = 32768 + r.val → s.resolve (classify w) = .ok s.regs[r]) ∧
    (32775 < w.toNat → s.resolve (classify w) = .error (.invalidOperand w))

/-- R55: `dst` of the word of an operand. -/
def Obligations.DestinationOfWord : Prop :=
  ∀ w : Word,
    (∀ r : RegIx, w.toNat = 32768 + r.val → dst (classify w) = .ok r) ∧
    (w.toNat < 32768 ∨ 32775 < w.toNat → dst (classify w) = .error (.invalidDestination w))

/-! ### The step -/

/-- 30_encoding R62: while Running, when the cells from `pc` on hold the words of a well-formed instruction
and all of them lie in memory, the step is that instruction's. -/
def Obligations.StepRunsDecodedInstruction : Prop :=
  ∀ (s : State) (i : Instr), s.run = .running → i.wf = true →
    s.pc.toNat + i.operands.length ≤ 32767 →
    (∀ (k : Nat) (h : k < (encode i).length), s.mem.read (s.pc.toNat + k) = (encode i)[k]) →
    step s = exec i s

/-- R121: the fault `IllegalOpcode` is raised exactly when the opcode word at `pc` is in 22 to 65535,
whatever else holds, and by nothing else. -/
def Obligations.IllegalOpcodeExactly : Prop :=
  ∀ s : State, s.run = .running →
    (22 ≤ (s.mem.read s.pc.toNat).toNat →
      step s = .next { s with run := .faulted (.illegalOpcode (s.mem.read s.pc.toNat)) }) ∧
    (∀ (t : State) (w : Word), step s = .next t → t.run = .faulted (.illegalOpcode w) →
      w = s.mem.read s.pc.toNat ∧ 22 ≤ w.toNat)

/-- 10_state R15 (a), 30_encoding R62 step 3 (decision D4 of the spec): an operand word beyond address
32767 faults before anything else is done. -/
def Obligations.OperandBeyondTopFaults : Prop :=
  ∀ (s : State) (n : Nat), s.run = .running →
    [0, 2, 1, 1, 3, 3, 1, 2, 2, 3, 3, 3, 3, 3, 2, 2, 2, 1, 0, 1, 1, 0][(s.mem.read s.pc.toNat).toNat]?
      = some n →
    32767 < s.pc.toNat + n →
    step s = .next { s with run := .faulted (.addressOutOfRange (s.pc.toNat + n)) }

/-- 10_state R20: in `Halted` and `Faulted` no step is taken and no state changes. That the model answers
this by the same state again is its own choice (log 4), and so is that a claim speaks of every field of a state
whose run has ended (70_reset_and_hazards R158; log 15). -/
def Obligations.TerminalStatesStay : Prop :=
  ∀ (s : State) (k : Nat), s.run ≠ .running → step s = .next s ∧ s.runFor k = s

/-- 70_reset_and_hazards R162: every state has a next state; no step of this machine ends in the
interface's fault or refusal. -/
def Obligations.EveryStepAnswersNext : Prop :=
  ∀ s : State, ∃ t : State, step s = .next t

/-- The words the host places where the next step fetches are the instruction that step runs (the model's
interface, log 7). -/
def Obligations.PlacedInstructionRuns : Prop :=
  ∀ (s : State) (nbits w : Nat) (i : Instr), s.mem.wf = true → decodeTableWord nbits w = some i →
    s.pc.toNat + 3 ≤ 32767 →
    step (s.withFetchWord nbits w) = exec i (s.withFetchWord nbits w)

/-! ### The instructions, one rule each -/

/-- R70: `halt`. The value of `pc` after it is decision D5 of the spec; that a claim speaks of `pc` and the other
fields once the run has ended is the model's choice (70_reset_and_hazards R158; log 15). -/
def Obligations.HaltRule : Prop :=
  encode .halt = [0] ∧
  ∀ s : State, exec .halt s =
    .next { s with run := .halted, pc := BitVec.ofNat 15 ((s.pc.toNat + 1) % 32768) }

/-- R71: `noop`. -/
def Obligations.NoopRule : Prop :=
  encode .noop = [21] ∧
  ∀ s : State,
    (s.pc.toNat + 1 ≤ 32767 →
      exec .noop s = .next { s with pc := BitVec.ofNat 15 (s.pc.toNat + 1) }) ∧
    (s.pc.toNat = 32767 → Faults .noop s (.addressOutOfRange 32768))

/-- R75: `set`. -/
def Obligations.SetRule : Prop := UnaryRule .set 1 (fun v => v)

/-- R76: `push`. -/
def Obligations.PushRule : Prop :=
  ∀ (s : State) (a : Operand),
    encode (.push a) = [2, a.toWord] ∧
    (∀ w, a = .invalid w → Faults (.push a) s (.invalidOperand w)) ∧
    (∀ v, Denotes s a v → 32767 < s.pc.toNat + 2 →
      Faults (.push a) s (.addressOutOfRange (s.pc.toNat + 2))) ∧
    (∀ v, Denotes s a v → s.pc.toNat + 2 ≤ 32767 → s.cfg.stackDepth = some s.stack.length →
      Faults (.push a) s .stackOverflow) ∧
    (∀ v, Denotes s a v → s.pc.toNat + 2 ≤ 32767 → StackHasRoom s →
      exec (.push a) s =
        .next { s with stack := v :: s.stack, pc := BitVec.ofNat 15 (s.pc.toNat + 2) })

/-- R77: `pop`. -/
def Obligations.PopRule : Prop :=
  ∀ (s : State) (a : Operand),
    encode (.pop a) = [3, a.toWord] ∧
    (NotRegister a → Faults (.pop a) s (.invalidDestination a.toWord)) ∧
    (∀ d, a = .reg d → s.stack = [] → Faults (.pop a) s .stackUnderflow) ∧
    (∀ d v rest, a = .reg d → s.stack = v :: rest → 32767 < s.pc.toNat + 2 →
      Faults (.pop a) s (.addressOutOfRange (s.pc.toNat + 2))) ∧
    (∀ d v rest, a = .reg d → s.stack = v :: rest → s.pc.toNat + 2 ≤ 32767 →
      exec (.pop a) s = .next { s with
        regs := s.regs.set d v
        stack := rest
        pc := BitVec.ofNat 15 (s.pc.toNat + 2) })

/-- R80, R81: `eq` and `gt`, an unsigned comparison. -/
def Obligations.EqGtRules : Prop :=
  BinaryRule .eq 4 (fun x y => if x = y then 1 else 0) ∧
  BinaryRule .gt 5 (fun x y => if x > y then 1 else 0)

/-- R85: `jmp`, which never uses `npc`. -/
def Obligations.JmpRule : Prop :=
  ∀ (s : State) (a : Operand),
    encode (.jmp a) = [6, a.toWord] ∧
    (∀ w, a = .invalid w → Faults (.jmp a) s (.invalidOperand w)) ∧
    (∀ t, Denotes s a t → exec (.jmp a) s = .next { s with pc := t })

/-- R86, R87: `jt` and `jf`, complements of each other. That the target is resolved only when the jump is
taken is decision D10 of the spec. -/
def Obligations.JtJfRules : Prop :=
  BranchRule .jt 7 (fun v => v ≠ 0) ∧ BranchRule .jf 8 (fun v => v = 0)

/-- R90: `add`. -/
def Obligations.AddRule : Prop := BinaryRule .add 9 (fun x y => (x + y) % 32768)

/-- R91: `mult`. -/
def Obligations.MultRule : Prop := BinaryRule .mult 10 (fun x y => x * y % 32768)

/-- R92: `mod`; the divisor is tested before the top of memory. -/
def Obligations.ModRule : Prop :=
  ∀ (s : State) (a b c : Operand),
    encode (.mod a b c) = [11, a.toWord, b.toWord, c.toWord] ∧
    (NotRegister a → Faults (.mod a b c) s (.invalidDestination a.toWord)) ∧
    (∀ d w, a = .reg d → b = .invalid w → Faults (.mod a b c) s (.invalidOperand w)) ∧
    (∀ d vb w, a = .reg d → Denotes s b vb → c = .invalid w →
      Faults (.mod a b c) s (.invalidOperand w)) ∧
    (∀ d vb, a = .reg d → Denotes s b vb → Denotes s c 0 → Faults (.mod a b c) s .divisionByZero) ∧
    (∀ d vb vc, a = .reg d → Denotes s b vb → Denotes s c vc → vc ≠ 0 → 32767 < s.pc.toNat + 4 →
      Faults (.mod a b c) s (.addressOutOfRange (s.pc.toNat + 4))) ∧
    (∀ d vb vc, a = .reg d → Denotes s b vb → Denotes s c vc → vc ≠ 0 → s.pc.toNat + 4 ≤ 32767 →
      exec (.mod a b c) s = .next { s with
        regs := s.regs.set d (BitVec.ofNat 15 (vb.toNat % vc.toNat))
        pc := BitVec.ofNat 15 (s.pc.toNat + 4) })

/-- R93, R94: `and` and `or`, bit by bit. -/
def Obligations.AndOrRules : Prop :=
  BinaryRule .and 12 (fun x y => x &&& y) ∧ BinaryRule .or 13 (fun x y => x ||| y)

/-- R95: `not`, the 15-bit complement. -/
def Obligations.NotRule : Prop := UnaryRule .not 14 (fun v => 32767 - v)

/-- R100: `rmem`. The fault on a cell above 32767 is decision D8 of the spec. -/
def Obligations.RmemRule : Prop :=
  ∀ (s : State) (a b : Operand),
    encode (.rmem a b) = [15, a.toWord, b.toWord] ∧
    (NotRegister a → Faults (.rmem a b) s (.invalidDestination a.toWord)) ∧
    (∀ d w, a = .reg d → b = .invalid w → Faults (.rmem a b) s (.invalidOperand w)) ∧
    (∀ d addr, a = .reg d → Denotes s b addr → 32767 < (s.mem.read addr.toNat).toNat →
      Faults (.rmem a b) s (.valueOutOfRange addr (s.mem.read addr.toNat))) ∧
    (∀ d addr, a = .reg d → Denotes s b addr → (s.mem.read addr.toNat).toNat ≤ 32767 →
      32767 < s.pc.toNat + 3 → Faults (.rmem a b) s (.addressOutOfRange (s.pc.toNat + 3))) ∧
    (∀ d addr, a = .reg d → Denotes s b addr → (s.mem.read addr.toNat).toNat ≤ 32767 →
      s.pc.toNat + 3 ≤ 32767 →
      exec (.rmem a b) s = .next { s with
        regs := s.regs.set d (BitVec.ofNat 15 (s.mem.read addr.toNat).toNat)
        pc := BitVec.ofNat 15 (s.pc.toNat + 3) })

/-- R101: `wmem`. When it completes, the cell at the first operand's value holds the second's, zero
extended, every other cell reads as before, and nothing else changes but `pc`. -/
def Obligations.WmemRule : Prop :=
  ∀ (s : State) (a b : Operand), s.mem.wf = true →
    encode (.wmem a b) = [16, a.toWord, b.toWord] ∧
    (∀ w, a = .invalid w → Faults (.wmem a b) s (.invalidOperand w)) ∧
    (∀ addr w, Denotes s a addr → b = .invalid w → Faults (.wmem a b) s (.invalidOperand w)) ∧
    (∀ addr v, Denotes s a addr → Denotes s b v → 32767 < s.pc.toNat + 3 →
      Faults (.wmem a b) s (.addressOutOfRange (s.pc.toNat + 3))) ∧
    (∀ addr v, Denotes s a addr → Denotes s b v → s.pc.toNat + 3 ≤ 32767 →
      ∃ m : Memory,
        exec (.wmem a b) s = .next { s with mem := m, pc := BitVec.ofNat 15 (s.pc.toNat + 3) } ∧
        (m.read addr.toNat).toNat = v.toNat ∧
        ∀ x : Nat, x ≠ addr.toNat → m.read x = s.mem.read x)

/-- R105: `call`. The fault on the return address 32768 is decision D4 of the spec. -/
def Obligations.CallRule : Prop :=
  ∀ (s : State) (a : Operand),
    encode (.call a) = [17, a.toWord] ∧
    (∀ w, a = .invalid w → Faults (.call a) s (.invalidOperand w)) ∧
    (∀ t, Denotes s a t → 32767 < s.pc.toNat + 2 →
      Faults (.call a) s (.addressOutOfRange (s.pc.toNat + 2))) ∧
    (∀ t, Denotes s a t → s.pc.toNat + 2 ≤ 32767 → s.cfg.stackDepth = some s.stack.length →
      Faults (.call a) s .stackOverflow) ∧
    (∀ t, Denotes s a t → s.pc.toNat + 2 ≤ 32767 → StackHasRoom s →
      exec (.call a) s =
        .next { s with stack := BitVec.ofNat 15 (s.pc.toNat + 2) :: s.stack, pc := t })

/-- R106: `ret`. The value of `pc` on the halting path is decision D5 of the spec; that a claim speaks of `pc` and
the other fields once the run has ended is the model's choice (70_reset_and_hazards R158; log 15). -/
def Obligations.RetRule : Prop :=
  encode .ret = [18] ∧
  ∀ s : State,
    (∀ t rest, s.stack = t :: rest → exec .ret s = .next { s with stack := rest, pc := t }) ∧
    (s.stack = [] → exec .ret s =
      .next { s with run := .halted, pc := BitVec.ofNat 15 ((s.pc.toNat + 1) % 32768) })

/-- R110, R116: `out`. How the model holds a host that fails, `outputRoom`, is its own choice (log 5). -/
def Obligations.OutRule : Prop :=
  ∀ (s : State) (a : Operand),
    encode (.out a) = [19, a.toWord] ∧
    (∀ w, a = .invalid w → Faults (.out a) s (.invalidOperand w)) ∧
    (∀ v, Denotes s a v → 32767 < s.pc.toNat + 2 →
      Faults (.out a) s (.addressOutOfRange (s.pc.toNat + 2))) ∧
    (∀ v, Denotes s a v → s.pc.toNat + 2 ≤ 32767 → s.outputRoom = some 0 →
      Faults (.out a) s .environmentFailure) ∧
    (∀ v, Denotes s a v → s.pc.toNat + 2 ≤ 32767 → s.outputRoom ≠ some 0 →
      exec (.out a) s = .next { s with
        output := s.output ++ [v]
        outputRoom := s.outputRoom.map (fun room => room - 1)
        pc := BitVec.ofNat 15 (s.pc.toNat + 2) })

/-- R111, R114, R116: `in`. That its checks come before any input is asked for is decision D26 of the
spec; how the model holds what the host will do, and that a waiting `in` answers the same state, are its
own choices (log 5, log 4). -/
def Obligations.InRule : Prop :=
  ∀ (s : State) (a : Operand),
    encode (.in_ a) = [20, a.toWord] ∧
    (NotRegister a → Faults (.in_ a) s (.invalidDestination a.toWord)) ∧
    (∀ d, a = .reg d → 32767 < s.pc.toNat + 2 →
      Faults (.in_ a) s (.addressOutOfRange (s.pc.toNat + 2))) ∧
    (∀ d ch rest, a = .reg d → s.pc.toNat + 2 ≤ 32767 → s.inbuf = ch :: rest →
      exec (.in_ a) s = .next { s with
        regs := s.regs.set d ch
        inbuf := rest
        pc := BitVec.ofNat 15 (s.pc.toNat + 2) }) ∧
    (∀ d line lines, a = .reg d → s.pc.toNat + 2 ≤ 32767 → s.inbuf = [] → s.input = line :: lines →
      exec (.in_ a) s = .next { s with
        regs := s.regs.set d line.first
        inbuf := line.rest
        input := lines
        pc := BitVec.ofNat 15 (s.pc.toNat + 2) }) ∧
    (∀ d, a = .reg d → s.pc.toNat + 2 ≤ 32767 → s.inbuf = [] → s.input = [] → s.inputEnd = .silent →
      exec (.in_ a) s = .next s) ∧
    (∀ d, a = .reg d → s.pc.toNat + 2 ≤ 32767 → s.inbuf = [] → s.input = [] → s.inputEnd = .fails →
      Faults (.in_ a) s .environmentFailure)

/-! ### Frames and whole-machine rules, over all instructions -/

/-- 10_state R12: only the register a destination operand names can change. -/
def Obligations.OnlyDestinationRegisterChanges : Prop :=
  ∀ (i : Instr) (s t : State) (r : RegIx), exec i s = .next t →
    destinationOperand i ≠ some (.reg r) → t.regs[r] = s.regs[r]

/-- 10_state R12: a register is read only through a value operand. If no value operand of `i` names
register `r`, giving `r` another value changes nothing of what `i` does to the rest of the machine. -/
def Obligations.OnlyValueOperandsAreRead : Prop :=
  ∀ (i : Instr) (s t : State) (r : RegIx) (v : Value), exec i s = .next t →
    .reg r ∉ valueOperands i →
    ∃ u : State, exec i { s with regs := s.regs.set r v } = .next u ∧
      { u with regs := t.regs } = t ∧ ∀ q : RegIx, q ≠ r → u.regs[q] = t.regs[q]

/-- 20_memory R33: no instruction but `wmem` changes memory, and `wmem` changes no cell but the one its
first operand addresses. -/
def Obligations.OnlyWmemChangesMemory : Prop :=
  ∀ (i : Instr) (s t : State), exec i s = .next t →
    ((∀ a b, i ≠ .wmem a b) → t.mem = s.mem) ∧
    (∀ a b addr, i = .wmem a b → Denotes s a addr →
      ∀ x : Nat, x ≠ addr.toNat → t.mem.read x = s.mem.read x)

/-- 10_state R16: only four instructions touch the stack; `push` and `call` push at most one entry, `pop`
and `ret` pop at most one. -/
def Obligations.OnlyFourInstructionsTouchStack : Prop :=
  ∀ (i : Instr) (s t : State), exec i s = .next t →
    t.stack = s.stack ∨
    (((∃ a, i = .push a) ∨ ∃ a, i = .call a) ∧ ∃ v, t.stack = v :: s.stack) ∨
    (((∃ a, i = .pop a) ∨ i = .ret) ∧ ∃ v, s.stack = v :: t.stack)

/-- 10_state R19, R21, R23; 47_out_in R112: only `in` changes the line buffer and takes the host's lines,
only `out` changes the output, which is only ever appended to, and no instruction changes the parameters. -/
def Obligations.StreamsAndParametersFrame : Prop :=
  ∀ (i : Instr) (s t : State), exec i s = .next t →
    ((∀ a, i ≠ .in_ a) → t.inbuf = s.inbuf ∧ t.input = s.input) ∧
    ((∀ a, i ≠ .out a) → t.output = s.output ∧ t.outputRoom = s.outputRoom) ∧
    s.output <+: t.output ∧ t.output.length ≤ s.output.length + 1 ∧
    t.inputEnd = s.inputEnd ∧ t.cfg = s.cfg

/-- 10_state R20, 70_reset_and_hazards R157 (a): a run halts only by `halt`, or by `ret` with an empty
stack. -/
def Obligations.HaltedOnlyByHaltOrEmptyRet : Prop :=
  ∀ s t : State, s.run = .running → step s = .next t → t.run = .halted →
    s.mem.read s.pc.toNat = 0 ∨ (s.mem.read s.pc.toNat = 18 ∧ s.stack = [])

/-- 60_exceptions R132 (decision D6 of the spec): a step that faults commits nothing; every field but the
run state keeps its value. That a claim speaks of those fields once the run has ended is the model's choice
(70_reset_and_hazards R158; log 15). -/
def Obligations.FaultsArePrecise : Prop :=
  ∀ (s t : State) (k : Fault), s.run = .running → step s = .next t → t.run = .faulted k →
    t = { s with run := .faulted k }

/-- 60_exceptions R144: an instruction raises no fault but those of its row of the matrix. -/
def Obligations.FaultMatrix : Prop :=
  ∀ (i : Instr) (s t : State) (k : Fault), s.run = .running → exec i s = .next t →
    t.run = .faulted k → canRaise i k = true

/-- R123: `InvalidDestination` is raised exactly by the 12 instructions with a destination operand, when
that operand names no register. That it is so whatever else is wrong is the priority of 60_exceptions R133,
decision D9 of the spec (log 2). -/
def Obligations.InvalidDestinationExactly : Prop :=
  ∀ (i : Instr) (s : State) (w : Word), s.run = .running →
    ((∃ t, exec i s = .next t ∧ t.run = .faulted (.invalidDestination w)) ↔
      ∃ a, destinationOperand i = some a ∧ NotRegister a ∧ w = a.toWord)

/-- R125: only `pop` raises `StackUnderflow`, and only on an empty stack; there `ret` halts instead. -/
def Obligations.StackUnderflowOnlyByPop : Prop :=
  ∀ s : State, s.run = .running →
    (∀ (i : Instr) (t : State), exec i s = .next t → t.run = .faulted .stackUnderflow →
      (∃ a, i = .pop a) ∧ s.stack = []) ∧
    (∀ d : RegIx, s.stack = [] → Faults (.pop (.reg d)) s .stackUnderflow) ∧
    (s.stack = [] → ∃ t, exec .ret s = .next t ∧ t.run = .halted)

/-- R126: only `mod` raises `DivisionByZero`, exactly when its resolved divisor is 0 once its operands are
sound: the literal 0 and a register that holds 0 alike. -/
def Obligations.DivisionByZeroOnlyByMod : Prop :=
  ∀ s : State, s.run = .running →
    (∀ (i : Instr) (t : State), exec i s = .next t → t.run = .faulted .divisionByZero →
      ∃ a b c, i = .mod a b c ∧ Denotes s c 0) ∧
    (∀ (d : RegIx) (b : Operand) (vb : Value), Denotes s b vb →
      Faults (.mod (.reg d) b (.lit 0)) s .divisionByZero ∧
      ∀ r : RegIx, s.regs[r] = 0 → Faults (.mod (.reg d) b (.reg r)) s .divisionByZero)

/-- 10_state R17, 60_exceptions R129 (decision D12 of the spec): with an unbounded stack no step raises
`StackOverflow`. -/
def Obligations.UnboundedStackNeverOverflows : Prop :=
  ∀ s t : State, s.run = .running → s.cfg.stackDepth = none → step s = .next t →
    t.run ≠ .faulted .stackOverflow

/-- 60_exceptions R141, 10_state R23 (a): the debug configuration does not affect execution. -/
def Obligations.TraceDoesNotAffectExecution : Prop :=
  ∀ (s t : State) (c : TraceConfig), step s = .next t →
    step { s with cfg := { s.cfg with trace := c } } = .next { t with cfg := { t.cfg with trace := c } }

/-! ### Memory and invariants -/

/-- R32: the two memory primitives. -/
def Obligations.MemoryPrimitives : Prop :=
  ∀ (s : State) (addr : Addr) (v : Value), s.mem.wf = true →
    ((s.memWrite addr v).memRead addr).toNat = v.toNat ∧
    ∀ other : Addr, other ≠ addr → (s.memWrite addr v).memRead other = s.memRead other

/-- The invariant of the model (Safety.lean): memory in canonical form, which is the model's own choice (log 1),
and a stack within a finite capacity. It holds at reset. -/
def Obligations.InvariantAtReset : Prop := State.reset.Inv

/-- The invariant holds after the reset sequence, whatever the image, the parameters, the registers and
the host (70_reset_and_hazards R154). The canonical form of memory is the model's own choice (log 1), and so is
what memory and the rest hold after an image that the loader rejects (log 12). -/
def Obligations.InvariantAtConstruction : Prop :=
  ∀ (image : List Byte) (cfg : Config) (regs : Vector Value 8) (input : List Line) (e : InputEnd)
    (room : Option Nat), (State.construct image cfg regs input e room).Inv

/-- Every step keeps the invariant, from every state that has it: memory in canonical form, which is the model's
own choice (log 1), and a stack within its capacity (10_state R17). -/
def Obligations.StepKeepsInvariant : Prop :=
  ∀ s t : State, s.Inv → step s = .next t → t.Inv

/-- 10_state R28 (d), 45_rmem_wmem R101: no step makes a cell hold more than 32767; a cell that does has
held that word since it was loaded. -/
def Obligations.NoStepCreatesWideCell : Prop :=
  ∀ (s t : State) (x : Nat), s.mem.wf = true → step s = .next t → 32767 < (t.mem.read x).toNat →
    t.mem.read x = s.mem.read x

/-! ### Properties of two instructions -/

/-- 46_call_ret R105 (d): after a `call` that completes, a `ret` in any later state whose stack is as the
`call` left it resumes at the address after the `call`, with the stack as before the `call`. -/
def Obligations.CallThenRetReturns : Prop :=
  ∀ (s t u : State) (a : Operand), s.run = .running → exec (.call a) s = .next t → t.run = .running →
    u.stack = t.stack →
    exec .ret u = .next { u with stack := s.stack, pc := BitVec.ofNat 15 (s.pc.toNat + 2) }

/-- 41_set_push_pop R77 (b): a `pop` in any later state whose stack is as a completed `push` left it reads
the value pushed and leaves the stack as before the `push`. -/
def Obligations.PushThenPopRoundTrip : Prop :=
  ∀ (s t u : State) (a : Operand) (v : Value) (d : RegIx), s.run = .running → Denotes s a v →
    exec (.push a) s = .next t → t.run = .running → u.stack = t.stack → u.pc.toNat + 2 ≤ 32767 →
    exec (.pop (.reg d)) u = .next { u with
      regs := u.regs.set d v
      stack := s.stack
      pc := BitVec.ofNat 15 (u.pc.toNat + 2) }

/-- 44_alu R95 (b): two `not` instructions in a row, the second on the first's result, give back the
value. -/
def Obligations.NotTwiceGivesBack : Prop :=
  ∀ (s : State) (b : Operand) (v : Value) (d e : RegIx), Denotes s b v → s.pc.toNat + 6 ≤ 32767 →
    ∃ t u : State, exec (.not (.reg d) b) s = .next t ∧ exec (.not (.reg e) (.reg d)) t = .next u ∧
      u.regs[e] = v

/-- 10_state R19, 47_out_in R111 (c): across `in` instructions the program sees the host's lines
concatenated: each takes the next character of all that is pending, and leaves the rest. -/
def Obligations.InputIsDeliveredInOrder : Prop :=
  ∀ (s : State) (d : RegIx) (ch : Value) (rest : List Value), s.pc.toNat + 2 ≤ 32767 →
    s.pendingInput = ch :: rest →
    ∃ t : State, exec (.in_ (.reg d)) s = .next t ∧ t.regs = s.regs.set d ch ∧
      t.pendingInput = rest ∧ t.run = s.run

/-- 47_out_in R114, 60_exceptions R142 (decision D14 of the spec): a core that waits for a line stays as it
is for ever, neither Halted nor Faulted; when the host supplies a line, the `in` completes with its first
character in the register that the `in` names, and all other state has survived the wait. That a waiting step
answers the same state (log 4), and that the host is fields of State which `waiting` and `supplyLine` speak of
(log 5), are the model's own choices. -/
def Obligations.WaitingEndsWithALine : Prop :=
  ∀ s : State, s.waiting = true →
    (∀ k : Nat, s.runFor k = s ∧ s.run = .running) ∧
    ∃ d : RegIx, s.fetch = .ok (.in_ (.reg d)) ∧
      ∀ line : Line, step (s.supplyLine line) = .next { s with
        regs := s.regs.set d line.first
        inbuf := line.rest
        pc := BitVec.ofNat 15 (s.pc.toNat + 2) }

/-! ### Reset and the loader -/

/-- R151: the loader. -/
def Obligations.LoaderRule : Prop :=
  ∀ bytes : List Byte,
    (bytes.length % 2 = 1 → load bytes = .error (.truncatedImage bytes.length)) ∧
    (bytes.length % 2 = 0 → 32768 < bytes.length / 2 →
      load bytes = .error (.imageTooLarge bytes.length)) ∧
    (bytes.length % 2 = 0 → bytes.length / 2 ≤ 32768 →
      ∃ m : Memory, load bytes = .ok m ∧
        (∀ i lo hi, bytes[2 * i]? = some lo → bytes[2 * i + 1]? = some hi →
          (m.read i).toNat = lo.toNat + 256 * hi.toNat) ∧
        ∀ i, bytes.length / 2 ≤ i → m.read i = 0)

/-- 70_reset_and_hazards R154, 10_state R25 to R27 (decisions D1, D2, D3 of the spec): what the reset
sequence leaves when the loader accepts the image, and the state after reset. That the latter is the machine with
the empty image (log 7), the default parameters (log 6) and a silent host (log 5) is the model's own choice. -/
def Obligations.ResetSequence : Prop :=
  (∀ (image : List Byte) (cfg : Config) (regs : Vector Value 8) (input : List Line) (e : InputEnd)
    (room : Option Nat) (m : Memory), load image = .ok m →
    State.construct image cfg regs input e room =
      { mem := m, regs := regs, pc := 0, stack := [], inbuf := [], run := .running, output := [],
        input := input, inputEnd := e, outputRoom := room, cfg := cfg }) ∧
  State.reset = State.construct [] Config.default (Vector.replicate 8 0) [] .silent none ∧
  (∀ x, State.reset.mem.read x = 0) ∧ (∀ r : RegIx, State.reset.regs[r] = 0) ∧
  State.reset.pc = 0 ∧ State.reset.run = .running

/-- 70_reset_and_hazards R153: after a loader error the run state is Faulted from the start, no step is
taken, and no character is emitted or consumed. That the model answers a step there by the same state is
its own choice (log 4). -/
def Obligations.LoaderErrorTakesNoStep : Prop :=
  ∀ (image : List Byte) (cfg : Config) (regs : Vector Value 8) (input : List Line) (e : InputEnd)
    (room : Option Nat) (k : Fault) (n : Nat), load image = .error k →
    ((State.construct image cfg regs input e room).runFor n).run = .faulted k ∧
    ((State.construct image cfg regs input e room).runFor n).output = [] ∧
    ((State.construct image cfg regs input e room).runFor n).input = input

end
end

