-- ==== Sys2Proof/Laws/Decode.lean ====
section
/-! SUPPORT. The small lemmas of the decoder's and encoder's tables. -/

namespace Sys2Proof

/-! ### The three classes, one lemma each -/

theorem classify_of_lt {w : Word} (h : w.toNat < 32768) : classify w = .lit (trunc15 w) := if_pos h

theorem classify_of_mid {w : Word} (h : 32768 ≤ w.toNat) (h' : w.toNat ≤ 32775) :
    classify w = .reg (Fin.ofNat 8 (w.toNat - 32768)) := by
  unfold classify
  rw [if_neg (Nat.not_lt.2 h), if_pos h']

theorem classify_of_gt {w : Word} (h : 32775 < w.toNat) : classify w = .invalid w := by
  unfold classify
  rw [if_neg (show ¬ w.toNat < Config.regBase by simp only [Config.regBase]; omega),
    if_neg (Nat.not_le.2 h)]

theorem toNat_zext16 (v : Value) : (zext16 v).toNat = v.toNat := by
  have := v.isLt
  simp only [zext16, BitVec.toNat_setWidth]
  omega

theorem toNat_trunc15 (w : Word) : (trunc15 w).toNat = w.toNat % 32768 := by
  simp only [trunc15, BitVec.toNat_setWidth]

theorem toNat_regWord (r : RegIx) : (Operand.reg r).toWord.toNat = 32768 + r.val := by
  have := r.isLt
  simp only [Operand.toWord, Config.regBase, BitVec.toNat_ofNat]
  omega

/-- Classifying the word of a well-formed operand gives the operand back. -/
theorem classify_toWord {o : Operand} (h : o.wf = true) : classify o.toWord = o := by
  cases o with
  | lit v =>
    have hv := v.isLt
    rw [Operand.toWord, classify_of_lt (by rw [toNat_zext16]; exact hv)]
    congr 1
    apply BitVec.eq_of_toNat_eq
    rw [toNat_trunc15, toNat_zext16]
    omega
  | reg r =>
    have hr := r.isLt
    have hw := toNat_regWord r
    rw [classify_of_mid (by omega) (by omega), hw]
    have hi : Fin.ofNat 8 (32768 + r.val - 32768) = r := by
      apply Fin.ext
      simp only [Fin.ofNat, Nat.add_sub_cancel_left]
      exact Nat.mod_eq_of_lt hr
    rw [hi]
  | invalid w => exact classify_of_gt (of_decide_eq_true h)

/-- The word of a classified word is the word. -/
theorem toWord_classify (w : Word) : (classify w).toWord = w := by
  have hw := w.isLt
  apply BitVec.eq_of_toNat_eq
  by_cases h1 : w.toNat < 32768
  · rw [classify_of_lt h1, Operand.toWord, toNat_zext16, toNat_trunc15]
    omega
  · by_cases h2 : w.toNat ≤ 32775
    · rw [classify_of_mid (by omega) h2, toNat_regWord]
      simp only [Fin.ofNat]
      omega
    · rw [classify_of_gt (by omega)]
      rfl

/-- What `classify` gives is well formed. -/
theorem classify_wf (w : Word) : (classify w).wf = true := by
  by_cases h1 : w.toNat < 32768
  · rw [classify_of_lt h1]; rfl
  · by_cases h2 : w.toNat ≤ 32775
    · rw [classify_of_mid (by omega) h2]; rfl
    · rw [classify_of_gt (by omega)]; exact decide_eq_true (show 32775 < w.toNat by omega)

/-- The table has an entry exactly for the opcodes 0 to 21. -/
theorem nargs?_eq_none_iff (op : Word) : nargs? op = none ↔ 21 < op.toNat := by
  rw [nargs?, List.getElem?_eq_none_iff]
  simp only [nargsTable, List.length_cons, List.length_nil]
  omega

end Sys2Proof
end

