-- ==== Sys2Proof/Laws/Memory.lean ====
section
/-! SUPPORT. The laws of memory: read after write, and that every memory operation keeps the canonical
form. -/

namespace Sys2Proof.Machine

@[simp] theorem Memory.read_nil (a : Nat) : Memory.read [] a = 0 := rfl

theorem Memory.wfFrom_cons {lo a : Nat} {w : Word} {m : Memory} :
    Memory.wfFrom lo ((a, w) :: m) = true ↔
      lo ≤ a ∧ a < 32768 ∧ w ≠ 0 ∧ Memory.wfFrom (a + 1) m = true := by
  simp [Memory.wfFrom, and_assoc]

/-- The canonical form is kept when the least address is lowered. -/
theorem Memory.wfFrom_mono {lo lo' : Nat} {m : Memory} (h : Memory.wfFrom lo m = true)
    (hle : lo' ≤ lo) : Memory.wfFrom lo' m = true := by
  cases m with
  | nil => rfl
  | cons p m =>
    obtain ⟨a, w⟩ := p
    rw [Memory.wfFrom_cons] at h ⊢
    exact ⟨Nat.le_trans hle h.1, h.2⟩

/-- An address below the least listed one reads 0. -/
theorem Memory.read_below {lo a : Nat} {m : Memory} (h : Memory.wfFrom lo m = true) (ha : a < lo) :
    Memory.read m a = 0 := by
  induction m generalizing lo with
  | nil => rfl
  | cons p m ih =>
    obtain ⟨b, w⟩ := p
    rw [Memory.wfFrom_cons] at h
    have hne : a ≠ b := by omega
    simp only [Memory.read, if_neg hne]
    exact ih h.2.2.2 (by omega)

/-- An address beyond the address space reads 0. -/
theorem Memory.read_beyond {lo a : Nat} {m : Memory} (h : Memory.wfFrom lo m = true)
    (ha : 32768 ≤ a) : Memory.read m a = 0 := by
  induction m generalizing lo with
  | nil => rfl
  | cons p m ih =>
    obtain ⟨b, w⟩ := p
    rw [Memory.wfFrom_cons] at h
    have hne : a ≠ b := by omega
    simp only [Memory.read, if_neg hne]
    exact ih h.2.2.2

/-- A write leaves every other address alone, in any memory. -/
theorem Memory.read_write_other {a x : Nat} (m : Memory) (v : Word) (h : x ≠ a) :
    (m.write a v).read x = m.read x := by
  induction m with
  | nil =>
    simp only [Memory.write]
    split <;> simp [Memory.read, h]
  | cons p m ih =>
    obtain ⟨b, w⟩ := p
    simp only [Memory.write]
    split
    · split <;> simp [Memory.read, h]
    · split
      · rename_i hab
        subst hab
        split <;> simp [Memory.read, h]
      · simp only [Memory.read, ih]

/-- A read after a write to the same address gives the word written. -/
theorem Memory.read_write_same_from {lo a : Nat} {m : Memory} (v : Word)
    (h : Memory.wfFrom lo m = true) : (m.write a v).read a = v := by
  induction m generalizing lo with
  | nil =>
    simp only [Memory.write]
    split
    · rename_i hv; simp [Memory.read, hv]
    · simp [Memory.read]
  | cons p m ih =>
    obtain ⟨b, w⟩ := p
    rw [Memory.wfFrom_cons] at h
    simp only [Memory.write]
    split
    · rename_i hab
      split
      · rename_i hv
        have hne : a ≠ b := by omega
        rw [hv, Memory.read, if_neg hne, Memory.read_below h.2.2.2 (by omega)]
      · simp [Memory.read]
    · split
      · rename_i hab
        subst hab
        split
        · rename_i hv
          rw [hv, Memory.read_below h.2.2.2 (by omega)]
        · simp [Memory.read]
      · rename_i hne
        rw [Memory.read, if_neg hne]
        exact ih h.2.2.2

theorem Memory.read_write_same {a : Nat} {m : Memory} (v : Word) (h : m.wf = true) :
    (m.write a v).read a = v := Memory.read_write_same_from v h

/-- A write to an address of the space keeps the canonical form. -/
theorem Memory.wfFrom_write {lo a : Nat} {m : Memory} (v : Word) (h : Memory.wfFrom lo m = true)
    (hlo : lo ≤ a) (ha : a < 32768) : Memory.wfFrom lo (m.write a v) = true := by
  induction m generalizing lo with
  | nil =>
    simp only [Memory.write]
    split
    · rfl
    · rename_i hv; rw [Memory.wfFrom_cons]; exact ⟨hlo, ha, hv, rfl⟩
  | cons p m ih =>
    obtain ⟨b, w⟩ := p
    have h' := Memory.wfFrom_cons.1 h
    simp only [Memory.write]
    split
    · split
      · exact h
      · rename_i hab hv
        rw [Memory.wfFrom_cons, Memory.wfFrom_cons]
        exact ⟨hlo, ha, hv, by omega, h'.2⟩
    · split
      · rename_i hab
        subst hab
        split
        · exact Memory.wfFrom_mono h'.2.2.2 (by omega)
        · rename_i hv
          rw [Memory.wfFrom_cons]
          exact ⟨hlo, ha, hv, h'.2.2.2⟩
      · rw [Memory.wfFrom_cons]
        exact ⟨h'.1, h'.2.1, h'.2.2.1, ih h'.2.2.2 (by omega)⟩

theorem Memory.wf_write {a : Nat} {m : Memory} (v : Word) (h : m.wf = true) (ha : a < 32768) :
    (m.write a v).wf = true := Memory.wfFrom_write v h (Nat.zero_le a) ha

theorem Memory.wf_nil : Memory.wf [] = true := rfl

/-- Words placed from `base` on are in canonical form when they fit the address space. -/
theorem Memory.wfFrom_ofWords {base : Nat} {ws : List Word} (h : base + ws.length ≤ 32768) :
    Memory.wfFrom base (Memory.ofWords base ws) = true := by
  induction ws generalizing base with
  | nil => rfl
  | cons w ws ih =>
    simp only [List.length_cons] at h
    have ih' := ih (base := base + 1) (by omega)
    simp only [Memory.ofWords]
    split
    · exact Memory.wfFrom_mono ih' (by omega)
    · rename_i hw
      rw [Memory.wfFrom_cons]
      exact ⟨Nat.le_refl _, by omega, hw, ih'⟩

/-- Reading words placed from `base` on. -/
theorem Memory.read_ofWords {base : Nat} {ws : List Word} (k : Nat) :
    (Memory.ofWords base ws).read (base + k) = ws[k]?.getD 0 := by
  induction ws generalizing base k with
  | nil => simp [Memory.ofWords]
  | cons w ws ih =>
    have below : (Memory.ofWords (base + 1) ws).read base = 0 := by
      clear ih
      suffices ∀ (n : Nat), base < n → (Memory.ofWords n ws).read base = 0 from this _ (by omega)
      induction ws with
      | nil => intro n _; rfl
      | cons w' ws ih' =>
        intro n hn
        simp only [Memory.ofWords]
        split
        · exact ih' _ (by omega)
        · rw [Memory.read, if_neg (by omega)]
          exact ih' _ (by omega)
    cases k with
    | zero =>
      simp only [Memory.ofWords]
      split
      · rename_i hw; simpa [hw] using below
      · simp [Memory.read]
    | succ k =>
      have ih' := ih (base := base + 1) k
      rw [show base + 1 + k = base + (k + 1) by omega] at ih'
      simp only [Memory.ofWords]
      split
      · simpa using ih'
      · rw [Memory.read, if_neg (by omega)]
        simpa using ih'

/-- Storing words at consecutive addresses keeps the canonical form. -/
theorem Memory.wf_storeWords {m : Memory} {a : Nat} {ws : List Word} (h : m.wf = true) :
    (m.storeWords a ws).wf = true := by
  induction ws generalizing m a with
  | nil => exact h
  | cons w ws ih =>
    simp only [Memory.storeWords]
    split
    · rename_i ha
      exact ih (Memory.wf_write w h (by simp only [Config.maxAddr] at ha; omega))
    · exact h

/-- An address below those stored to reads as before. -/
theorem Memory.read_storeWords_below {m : Memory} {a x : Nat} {ws : List Word} (hx : x < a) :
    (m.storeWords a ws).read x = m.read x := by
  induction ws generalizing m a with
  | nil => rfl
  | cons w ws ih =>
    simp only [Memory.storeWords]
    split
    · rw [ih (by omega), Memory.read_write_other m w (by omega)]
    · rfl

/-- Reading words stored at consecutive addresses that fit the address space. -/
theorem Memory.read_storeWords {m : Memory} {a : Nat} {ws : List Word} (h : m.wf = true)
    (hfit : a + ws.length ≤ 32768) (k : Nat) (hk : k < ws.length) :
    (m.storeWords a ws).read (a + k) = ws[k] := by
  induction ws generalizing m a k with
  | nil => simp at hk
  | cons w ws ih =>
    simp only [List.length_cons] at hfit hk
    have ha : a ≤ Config.maxAddr := by simp only [Config.maxAddr]; omega
    simp only [Memory.storeWords, if_pos ha]
    cases k with
    | zero =>
      rw [Memory.read_storeWords_below (by omega), Nat.add_zero, Memory.read_write_same w h]
      rfl
    | succ k =>
      have ih' := ih (m := m.write a w) (a := a + 1)
        (Memory.wf_write w h (by omega)) (by omega) k (by omega)
      rw [show a + 1 + k = a + (k + 1) by omega] at ih'
      simpa using ih'

/-- Two memories in canonical form that read alike everywhere are the same list. -/
theorem Memory.eq_of_read_eq {lo : Nat} {m m' : Memory} (h : Memory.wfFrom lo m = true)
    (h' : Memory.wfFrom lo m' = true) (hr : ∀ a, m.read a = m'.read a) : m = m' := by
  induction m generalizing lo m' with
  | nil =>
    cases m' with
    | nil => rfl
    | cons p' m' =>
      obtain ⟨b, w⟩ := p'
      have hb := hr b
      simp only [Memory.read, if_true] at hb
      exact absurd hb.symm (Memory.wfFrom_cons.1 h').2.2.1
  | cons p m ih =>
    obtain ⟨a, v⟩ := p
    rw [Memory.wfFrom_cons] at h
    cases m' with
    | nil =>
      have ha := hr a
      simp only [Memory.read, if_true] at ha
      exact absurd ha h.2.2.1
    | cons p' m' =>
      obtain ⟨b, w⟩ := p'
      rw [Memory.wfFrom_cons] at h'
      have hab : a = b := by
        rcases Nat.lt_trichotomy a b with hlt | heq | hgt
        · have ha := hr a
          rw [Memory.read, if_pos rfl, Memory.read, if_neg (by omega),
            Memory.read_below h'.2.2.2 (by omega)] at ha
          exact absurd ha h.2.2.1
        · exact heq
        · have hb := hr b
          rw [Memory.read, if_neg (by omega), Memory.read_below h.2.2.2 (by omega), Memory.read,
            if_pos rfl] at hb
          exact absurd hb.symm h'.2.2.1
      subst hab
      have hvw : v = w := by simpa [Memory.read] using hr a
      subst hvw
      congr 1
      refine ih h.2.2.2 h'.2.2.2 fun x => ?_
      by_cases hx : x = a
      · subst hx
        rw [Memory.read_below h.2.2.2 (by omega), Memory.read_below h'.2.2.2 (by omega)]
      · simpa [Memory.read, hx] using hr x

end Sys2Proof.Machine
end

