-- ==== Sys2Proof/Laws/State.lean ====
section
/-! SUPPORT. One lemma per field per update of the state, true by `rfl`, so that no later proof unfolds an
update. -/

namespace Sys2Proof.Machine

/-! ### `x[r] <- v` -/

@[simp] theorem State.setReg_mem (s : State) (r : RegIx) (v : Value) : (s.setReg r v).mem = s.mem := rfl
@[simp] theorem State.setReg_regs (s : State) (r : RegIx) (v : Value) : (s.setReg r v).regs = s.regs.set r v := rfl
@[simp] theorem State.setReg_pc (s : State) (r : RegIx) (v : Value) : (s.setReg r v).pc = s.pc := rfl
@[simp] theorem State.setReg_stack (s : State) (r : RegIx) (v : Value) : (s.setReg r v).stack = s.stack := rfl
@[simp] theorem State.setReg_inbuf (s : State) (r : RegIx) (v : Value) : (s.setReg r v).inbuf = s.inbuf := rfl
@[simp] theorem State.setReg_run (s : State) (r : RegIx) (v : Value) : (s.setReg r v).run = s.run := rfl
@[simp] theorem State.setReg_output (s : State) (r : RegIx) (v : Value) : (s.setReg r v).output = s.output := rfl
@[simp] theorem State.setReg_input (s : State) (r : RegIx) (v : Value) : (s.setReg r v).input = s.input := rfl
@[simp] theorem State.setReg_inputEnd (s : State) (r : RegIx) (v : Value) : (s.setReg r v).inputEnd = s.inputEnd := rfl
@[simp] theorem State.setReg_outputRoom (s : State) (r : RegIx) (v : Value) : (s.setReg r v).outputRoom = s.outputRoom := rfl
@[simp] theorem State.setReg_cfg (s : State) (r : RegIx) (v : Value) : (s.setReg r v).cfg = s.cfg := rfl

/-! ### `pc <- t` -/

@[simp] theorem State.setPc_mem (s : State) (t : Addr) : (s.setPc t).mem = s.mem := rfl
@[simp] theorem State.setPc_regs (s : State) (t : Addr) : (s.setPc t).regs = s.regs := rfl
@[simp] theorem State.setPc_pc (s : State) (t : Addr) : (s.setPc t).pc = t := rfl
@[simp] theorem State.setPc_stack (s : State) (t : Addr) : (s.setPc t).stack = s.stack := rfl
@[simp] theorem State.setPc_inbuf (s : State) (t : Addr) : (s.setPc t).inbuf = s.inbuf := rfl
@[simp] theorem State.setPc_run (s : State) (t : Addr) : (s.setPc t).run = s.run := rfl
@[simp] theorem State.setPc_output (s : State) (t : Addr) : (s.setPc t).output = s.output := rfl
@[simp] theorem State.setPc_input (s : State) (t : Addr) : (s.setPc t).input = s.input := rfl
@[simp] theorem State.setPc_inputEnd (s : State) (t : Addr) : (s.setPc t).inputEnd = s.inputEnd := rfl
@[simp] theorem State.setPc_outputRoom (s : State) (t : Addr) : (s.setPc t).outputRoom = s.outputRoom := rfl
@[simp] theorem State.setPc_cfg (s : State) (t : Addr) : (s.setPc t).cfg = s.cfg := rfl

/-! ### `MemWrite` -/

@[simp] theorem State.memWrite_mem (s : State) (a : Addr) (v : Value) : (s.memWrite a v).mem = s.mem.write a.toNat (zext16 v) := rfl
@[simp] theorem State.memWrite_regs (s : State) (a : Addr) (v : Value) : (s.memWrite a v).regs = s.regs := rfl
@[simp] theorem State.memWrite_pc (s : State) (a : Addr) (v : Value) : (s.memWrite a v).pc = s.pc := rfl
@[simp] theorem State.memWrite_stack (s : State) (a : Addr) (v : Value) : (s.memWrite a v).stack = s.stack := rfl
@[simp] theorem State.memWrite_inbuf (s : State) (a : Addr) (v : Value) : (s.memWrite a v).inbuf = s.inbuf := rfl
@[simp] theorem State.memWrite_run (s : State) (a : Addr) (v : Value) : (s.memWrite a v).run = s.run := rfl
@[simp] theorem State.memWrite_output (s : State) (a : Addr) (v : Value) : (s.memWrite a v).output = s.output := rfl
@[simp] theorem State.memWrite_input (s : State) (a : Addr) (v : Value) : (s.memWrite a v).input = s.input := rfl
@[simp] theorem State.memWrite_inputEnd (s : State) (a : Addr) (v : Value) : (s.memWrite a v).inputEnd = s.inputEnd := rfl
@[simp] theorem State.memWrite_outputRoom (s : State) (a : Addr) (v : Value) : (s.memWrite a v).outputRoom = s.outputRoom := rfl
@[simp] theorem State.memWrite_cfg (s : State) (a : Addr) (v : Value) : (s.memWrite a v).cfg = s.cfg := rfl

/-! ### `Push(v)` -/

@[simp] theorem State.pushValue_mem (s : State) (v : Value) : (s.pushValue v).mem = s.mem := rfl
@[simp] theorem State.pushValue_regs (s : State) (v : Value) : (s.pushValue v).regs = s.regs := rfl
@[simp] theorem State.pushValue_pc (s : State) (v : Value) : (s.pushValue v).pc = s.pc := rfl
@[simp] theorem State.pushValue_stack (s : State) (v : Value) : (s.pushValue v).stack = v :: s.stack := rfl
@[simp] theorem State.pushValue_inbuf (s : State) (v : Value) : (s.pushValue v).inbuf = s.inbuf := rfl
@[simp] theorem State.pushValue_run (s : State) (v : Value) : (s.pushValue v).run = s.run := rfl
@[simp] theorem State.pushValue_output (s : State) (v : Value) : (s.pushValue v).output = s.output := rfl
@[simp] theorem State.pushValue_input (s : State) (v : Value) : (s.pushValue v).input = s.input := rfl
@[simp] theorem State.pushValue_inputEnd (s : State) (v : Value) : (s.pushValue v).inputEnd = s.inputEnd := rfl
@[simp] theorem State.pushValue_outputRoom (s : State) (v : Value) : (s.pushValue v).outputRoom = s.outputRoom := rfl
@[simp] theorem State.pushValue_cfg (s : State) (v : Value) : (s.pushValue v).cfg = s.cfg := rfl

/-! ### The end of a run -/

@[simp] theorem State.halt_mem (s : State) : (s.halt).mem = s.mem := rfl
@[simp] theorem State.halt_regs (s : State) : (s.halt).regs = s.regs := rfl
@[simp] theorem State.halt_pc (s : State) : (s.halt).pc = BitVec.ofNat 15 (s.npc 0) := rfl
@[simp] theorem State.halt_stack (s : State) : (s.halt).stack = s.stack := rfl
@[simp] theorem State.halt_inbuf (s : State) : (s.halt).inbuf = s.inbuf := rfl
@[simp] theorem State.halt_run (s : State) : (s.halt).run = .halted := rfl
@[simp] theorem State.halt_output (s : State) : (s.halt).output = s.output := rfl
@[simp] theorem State.halt_input (s : State) : (s.halt).input = s.input := rfl
@[simp] theorem State.halt_inputEnd (s : State) : (s.halt).inputEnd = s.inputEnd := rfl
@[simp] theorem State.halt_outputRoom (s : State) : (s.halt).outputRoom = s.outputRoom := rfl
@[simp] theorem State.halt_cfg (s : State) : (s.halt).cfg = s.cfg := rfl

/-! ### Fault entry -/

@[simp] theorem State.raise_mem (s : State) (k : Fault) : (s.raise k).mem = s.mem := rfl
@[simp] theorem State.raise_regs (s : State) (k : Fault) : (s.raise k).regs = s.regs := rfl
@[simp] theorem State.raise_pc (s : State) (k : Fault) : (s.raise k).pc = s.pc := rfl
@[simp] theorem State.raise_stack (s : State) (k : Fault) : (s.raise k).stack = s.stack := rfl
@[simp] theorem State.raise_inbuf (s : State) (k : Fault) : (s.raise k).inbuf = s.inbuf := rfl
@[simp] theorem State.raise_run (s : State) (k : Fault) : (s.raise k).run = .faulted k := rfl
@[simp] theorem State.raise_output (s : State) (k : Fault) : (s.raise k).output = s.output := rfl
@[simp] theorem State.raise_input (s : State) (k : Fault) : (s.raise k).input = s.input := rfl
@[simp] theorem State.raise_inputEnd (s : State) (k : Fault) : (s.raise k).inputEnd = s.inputEnd := rfl
@[simp] theorem State.raise_outputRoom (s : State) (k : Fault) : (s.raise k).outputRoom = s.outputRoom := rfl
@[simp] theorem State.raise_cfg (s : State) (k : Fault) : (s.raise k).cfg = s.cfg := rfl

/-! ### A line from the host -/

@[simp] theorem State.supplyLine_mem (s : State) (line : Line) : (s.supplyLine line).mem = s.mem := rfl
@[simp] theorem State.supplyLine_regs (s : State) (line : Line) : (s.supplyLine line).regs = s.regs := rfl
@[simp] theorem State.supplyLine_pc (s : State) (line : Line) : (s.supplyLine line).pc = s.pc := rfl
@[simp] theorem State.supplyLine_stack (s : State) (line : Line) : (s.supplyLine line).stack = s.stack := rfl
@[simp] theorem State.supplyLine_inbuf (s : State) (line : Line) : (s.supplyLine line).inbuf = s.inbuf := rfl
@[simp] theorem State.supplyLine_run (s : State) (line : Line) : (s.supplyLine line).run = s.run := rfl
@[simp] theorem State.supplyLine_output (s : State) (line : Line) : (s.supplyLine line).output = s.output := rfl
@[simp] theorem State.supplyLine_input (s : State) (line : Line) : (s.supplyLine line).input = s.input ++ [line] := rfl
@[simp] theorem State.supplyLine_inputEnd (s : State) (line : Line) : (s.supplyLine line).inputEnd = s.inputEnd := rfl
@[simp] theorem State.supplyLine_outputRoom (s : State) (line : Line) : (s.supplyLine line).outputRoom = s.outputRoom := rfl
@[simp] theorem State.supplyLine_cfg (s : State) (line : Line) : (s.supplyLine line).cfg = s.cfg := rfl

/-! ### An instruction placed by the host -/

@[simp] theorem State.withFetchWord_mem (s : State) (nbits w : Nat) : (s.withFetchWord nbits w).mem = s.mem.storeWords s.pc.toNat (tableWords nbits w) := rfl
@[simp] theorem State.withFetchWord_regs (s : State) (nbits w : Nat) : (s.withFetchWord nbits w).regs = s.regs := rfl
@[simp] theorem State.withFetchWord_pc (s : State) (nbits w : Nat) : (s.withFetchWord nbits w).pc = s.pc := rfl
@[simp] theorem State.withFetchWord_stack (s : State) (nbits w : Nat) : (s.withFetchWord nbits w).stack = s.stack := rfl
@[simp] theorem State.withFetchWord_inbuf (s : State) (nbits w : Nat) : (s.withFetchWord nbits w).inbuf = s.inbuf := rfl
@[simp] theorem State.withFetchWord_run (s : State) (nbits w : Nat) : (s.withFetchWord nbits w).run = .running := rfl
@[simp] theorem State.withFetchWord_output (s : State) (nbits w : Nat) : (s.withFetchWord nbits w).output = s.output := rfl
@[simp] theorem State.withFetchWord_input (s : State) (nbits w : Nat) : (s.withFetchWord nbits w).input = s.input := rfl
@[simp] theorem State.withFetchWord_inputEnd (s : State) (nbits w : Nat) : (s.withFetchWord nbits w).inputEnd = s.inputEnd := rfl
@[simp] theorem State.withFetchWord_outputRoom (s : State) (nbits w : Nat) : (s.withFetchWord nbits w).outputRoom = s.outputRoom := rfl
@[simp] theorem State.withFetchWord_cfg (s : State) (nbits w : Nat) : (s.withFetchWord nbits w).cfg = s.cfg := rfl

/-! ### Registers -/

@[simp] theorem State.getReg_setReg_same (s : State) (r : RegIx) (v : Value) :
    (s.setReg r v).getReg r = v := by
  simp [State.getReg]

theorem State.getReg_setReg_other (s : State) (r q : RegIx) (v : Value) (h : q ≠ r) :
    (s.setReg r v).getReg q = s.getReg q := by
  have : r.val ≠ q.val := fun e => h (Fin.ext e.symm)
  simp [State.getReg, this]

end Sys2Proof.Machine
end

