-- ==== Sys2Proof/Laws/Ops.lean ====
section
/-! SUPPORT. For each shared operation, once, everything it can do. -/

namespace Sys2Proof.Machine

/-! ### Pseudocode as a sequence of checks -/

@[simp] theorem ok_bind {α β : Type} (x : α) (f : α → Except Fault β) :
    ((Except.ok x : Except Fault α) >>= f) = f x := rfl

@[simp] theorem error_bind {α β : Type} (k : Fault) (f : α → Except Fault β) :
    ((Except.error k : Except Fault α) >>= f) = .error k := rfl

@[simp] theorem pure_eq_ok {α : Type} (x : α) : (pure x : Except Fault α) = .ok x := rfl

/-- A sequence completes exactly when its first part does and then its second. -/
theorem bind_eq_ok_iff {α β : Type} {x : Except Fault α} {f : α → Except Fault β} {y : β} :
    (x >>= f) = .ok y ↔ ∃ a, x = .ok a ∧ f a = .ok y := by
  cases x <;> simp

/-- A sequence faults exactly when its first part does, or completes and its second does. -/
theorem bind_eq_error_iff {α β : Type} {x : Except Fault α} {f : α → Except Fault β} {k : Fault} :
    (x >>= f) = .error k ↔ x = .error k ∨ ∃ a, x = .ok a ∧ f a = .error k := by
  cases x <;> simp

@[simp] theorem commit_ok (s t : State) : s.commit (.ok t) = .next t := rfl

@[simp] theorem commit_error (s : State) (k : Fault) : s.commit (.error k) = .next (s.raise k) := rfl

/-- A committed step always answers a next state: the pseudocode's result, or fault entry. -/
theorem commit_eq_next_iff {s t : State} {r : Except Fault State} :
    s.commit r = .next t ↔ r = .ok t ∨ ∃ k, r = .error k ∧ t = s.raise k := by
  cases r <;> simp [eq_comm]

theorem ensure_eq_ok_iff {ok : Bool} {k : Fault} {u : Unit} : ensure ok k = .ok u ↔ ok = true := by
  cases ok <;> simp [ensure]

theorem ensure_eq_error_iff {ok : Bool} {k j : Fault} : ensure ok k = .error j ↔ ok = false ∧ j = k := by
  cases ok <;> simp [ensure, eq_comm]

/-! ### Operands -/

@[simp] theorem resolve_lit (s : State) (v : Value) : s.resolve (.lit v) = .ok v := rfl

@[simp] theorem resolve_reg (s : State) (r : RegIx) : s.resolve (.reg r) = .ok s.regs[r] := rfl

@[simp] theorem resolve_invalid (s : State) (w : Word) :
    s.resolve (.invalid w) = .error (.invalidOperand w) := rfl

@[simp] theorem dst_lit (v : Value) : dst (.lit v) = .error (.invalidDestination (zext16 v)) := rfl

@[simp] theorem dst_reg (r : RegIx) : dst (.reg r) = .ok r := rfl

@[simp] theorem dst_invalid (w : Word) : dst (.invalid w) = .error (.invalidDestination w) := rfl

theorem dst_eq_ok_iff {o : Operand} {d : RegIx} : dst o = .ok d ↔ o = .reg d := by
  cases o <;> simp

theorem dst_eq_error_iff {o : Operand} {k : Fault} :
    dst o = .error k ↔ (∀ r, o ≠ .reg r) ∧ k = .invalidDestination o.toWord := by
  cases o <;> simp [Operand.toWord, eq_comm]

theorem resolve_eq_error_iff {s : State} {o : Operand} {k : Fault} :
    s.resolve o = .error k ↔ ∃ w, o = .invalid w ∧ k = .invalidOperand w := by
  cases o <;> simp [eq_comm]

/-- `resolve` depends on the registers only. -/
theorem resolve_congr {s t : State} (h : t.regs = s.regs) (o : Operand) :
    t.resolve o = s.resolve o := by
  cases o <;> simp [h]

/-! ### Program counter and stack -/

theorem checkedNpc_of_le {s : State} {n : Nat} (h : s.pc.toNat + 1 + n ≤ 32767) :
    s.checkedNpc n = .ok (BitVec.ofNat 15 (s.pc.toNat + 1 + n)) := if_neg (Nat.not_lt.2 h)

theorem checkedNpc_of_gt {s : State} {n : Nat} (h : 32767 < s.pc.toNat + 1 + n) :
    s.checkedNpc n = .error (.addressOutOfRange (s.pc.toNat + 1 + n)) := if_pos h

theorem checkedNpc_eq_ok_iff {s : State} {n : Nat} {p : Addr} :
    s.checkedNpc n = .ok p ↔
      s.pc.toNat + 1 + n ≤ 32767 ∧ p = BitVec.ofNat 15 (s.pc.toNat + 1 + n) := by
  rcases Nat.lt_or_ge 32767 (s.pc.toNat + 1 + n) with h | h
  · simp only [checkedNpc_of_gt h, reduceCtorEq, false_iff]
    omega
  · simp only [checkedNpc_of_le h, Except.ok.injEq, h, true_and, eq_comm]

theorem checkedNpc_eq_error_iff {s : State} {n : Nat} {k : Fault} :
    s.checkedNpc n = .error k ↔
      32767 < s.pc.toNat + 1 + n ∧ k = .addressOutOfRange (s.pc.toNat + 1 + n) := by
  rcases Nat.lt_or_ge 32767 (s.pc.toNat + 1 + n) with h | h
  · simp only [checkedNpc_of_gt h, Except.error.injEq, h, true_and, eq_comm]
  · simp only [checkedNpc_of_le h, reduceCtorEq, false_iff]
    omega

theorem stackFull_eq_true_iff {s : State} :
    s.stackFull = true ↔ ∃ depth, s.cfg.stackDepth = some depth ∧ depth ≤ s.stack.length := by
  unfold State.stackFull
  split <;> simp_all

theorem checkedPush_eq_ok_iff {s t : State} {v : Value} :
    s.checkedPush v = .ok t ↔ s.stackFull = false ∧ t = s.pushValue v := by
  unfold State.checkedPush
  cases s.stackFull <;> simp [eq_comm]

theorem checkedPush_eq_error_iff {s : State} {v : Value} {k : Fault} :
    s.checkedPush v = .error k ↔ s.stackFull = true ∧ k = .stackOverflow := by
  unfold State.checkedPush
  cases s.stackFull <;> simp [eq_comm]

/-! ### Character streams -/

theorem outChar_eq_ok_iff {s t : State} {v : Value} :
    s.outChar v = .ok t ↔ s.outputRoom ≠ some 0 ∧
      t = { s with output := s.output ++ [v], outputRoom := s.outputRoom.map (fun n => n - 1) } := by
  unfold State.outChar
  split
  · rename_i h; simp [h, eq_comm]
  · rename_i h; simp [h]
  · rename_i n h; simp [h, eq_comm]

theorem outChar_eq_error_iff {s : State} {v : Value} {k : Fault} :
    s.outChar v = .error k ↔ s.outputRoom = some 0 ∧ k = .environmentFailure := by
  unfold State.outChar
  split
  · rename_i h; simp [h]
  · rename_i h; simp [h, eq_comm]
  · rename_i n h; simp [h]

/-- The character delivered is the first of all that is pending, and the rest stays pending. -/
theorem nextChar_char {s : State} {ch : Value} {buffer : List Value} {lines : List Line}
    (h : s.nextChar = .char ch buffer lines) :
    s.pendingInput = ch :: State.pendingInput { s with inbuf := buffer, input := lines } := by
  unfold State.nextChar at h
  split at h
  · rename_i hb
    cases h
    simp [State.pendingInput, hb]
  · rename_i hb
    split at h
    · rename_i line lines' hi
      cases h
      simp [State.pendingInput, hb, hi]
    · split at h <;> cases h

/-- A character is delivered whenever one is pending. -/
theorem nextChar_of_pending {s : State} {ch : Value} {rest : List Value}
    (h : s.pendingInput = ch :: rest) :
    ∃ buffer lines, s.nextChar = .char ch buffer lines := by
  unfold State.pendingInput at h
  unfold State.nextChar
  cases hb : s.inbuf with
  | cons c b =>
    rw [hb] at h
    obtain ⟨rfl, -⟩ := List.cons.inj h
    exact ⟨b, s.input, rfl⟩
  | nil =>
    rw [hb] at h
    cases hi : s.input with
    | nil => simp [hi] at h
    | cons line lines =>
      rw [hi] at h
      obtain ⟨rfl, -⟩ := List.cons.inj h
      exact ⟨line.rest, lines, rfl⟩

/-! ### The shared instruction shapes -/

/-- What a completed instruction of the shape `F2DV` did. -/
theorem unary_eq_ok_iff {s t : State} {f : Value → Value} {a b : Operand} :
    s.unary f a b = .ok t ↔ ∃ d vb npc, dst a = .ok d ∧ s.resolve b = .ok vb ∧
      s.checkedNpc 2 = .ok npc ∧ t = (s.setReg d (f vb)).setPc npc := by
  simp only [State.unary, bind_eq_ok_iff, pure_eq_ok, Except.ok.injEq]
  constructor
  · rintro ⟨d, hd, vb, hb, p, hp, rfl⟩; exact ⟨d, vb, p, hd, hb, hp, rfl⟩
  · rintro ⟨d, vb, p, hd, hb, hp, rfl⟩; exact ⟨d, hd, vb, hb, p, hp, rfl⟩

/-- What a completed instruction of the shape `F3DVV` did. -/
theorem binary_eq_ok_iff {s t : State} {f : Value → Value → Value} {a b c : Operand} :
    s.binary f a b c = .ok t ↔ ∃ d vb vc npc, dst a = .ok d ∧ s.resolve b = .ok vb ∧
      s.resolve c = .ok vc ∧ s.checkedNpc 3 = .ok npc ∧ t = (s.setReg d (f vb vc)).setPc npc := by
  simp only [State.binary, bind_eq_ok_iff, pure_eq_ok, Except.ok.injEq]
  constructor
  · rintro ⟨d, hd, vb, hb, vc, hc, p, hp, rfl⟩; exact ⟨d, vb, vc, p, hd, hb, hc, hp, rfl⟩
  · rintro ⟨d, vb, vc, p, hd, hb, hc, hp, rfl⟩; exact ⟨d, hd, vb, hb, vc, hc, p, hp, rfl⟩

/-- Why an instruction of the shape `F2DV` faulted. -/
theorem unary_eq_error_iff {s : State} {f : Value → Value} {a b : Operand} {k : Fault} :
    s.unary f a b = .error k ↔ dst a = .error k ∨ ∃ d, dst a = .ok d ∧
      (s.resolve b = .error k ∨ ∃ vb, s.resolve b = .ok vb ∧ s.checkedNpc 2 = .error k) := by
  simp [State.unary, bind_eq_error_iff]

/-- Why an instruction of the shape `F3DVV` faulted. -/
theorem binary_eq_error_iff {s : State} {f : Value → Value → Value} {a b c : Operand} {k : Fault} :
    s.binary f a b c = .error k ↔ dst a = .error k ∨ ∃ d, dst a = .ok d ∧
      (s.resolve b = .error k ∨ ∃ vb, s.resolve b = .ok vb ∧
        (s.resolve c = .error k ∨ ∃ vc, s.resolve c = .ok vc ∧ s.checkedNpc 3 = .error k)) := by
  simp [State.binary, bind_eq_error_iff]

end Sys2Proof.Machine
end

