-- ==== Sys2Proof/Laws/Exec.lean ====
section
/-! SUPPORT. What a step can do, said once: every instruction either enters a fault, or has exactly its own
effect. -/

namespace Sys2Proof.Machine

/-- One value written to the destination register of an instruction of `n` operand words. -/
def Wrote (s t : State) (n : Nat) (a : Operand) (v : Value) : Prop :=
  ∃ d npc, a = .reg d ∧ s.checkedNpc n = .ok npc ∧ t = (s.setReg d v).setPc npc

/-- What each instruction does to `s` when its pseudocode raises nothing. -/
def Effect (s t : State) : Instr → Prop
  | .halt => t = s.halt
  | .set a b => ∃ v, s.resolve b = .ok v ∧ Wrote s t 2 a v
  | .push a => ∃ v npc, s.resolve a = .ok v ∧ s.checkedNpc 1 = .ok npc ∧ s.stackFull = false ∧
      t = (s.pushValue v).setPc npc
  | .pop a => ∃ d v rest npc, a = .reg d ∧ s.stack = v :: rest ∧ s.checkedNpc 1 = .ok npc ∧
      t = ({ s with stack := rest }.setReg d v).setPc npc
  | .eq a b c => ∃ vb vc, s.resolve b = .ok vb ∧ s.resolve c = .ok vc ∧
      Wrote s t 3 a (truthValue (decide (vb = vc)))
  | .gt a b c => ∃ vb vc, s.resolve b = .ok vb ∧ s.resolve c = .ok vc ∧
      Wrote s t 3 a (truthValue (decide (vc.toNat < vb.toNat)))
  | .jmp a => ∃ v, s.resolve a = .ok v ∧ t = s.setPc v
  | .jt a b => ∃ v p, s.resolve a = .ok v ∧ t = s.setPc p ∧
      (if isNonzero v then s.resolve b = .ok p else s.checkedNpc 2 = .ok p)
  | .jf a b => ∃ v p, s.resolve a = .ok v ∧ t = s.setPc p ∧
      (if !isNonzero v then s.resolve b = .ok p else s.checkedNpc 2 = .ok p)
  | .add a b c => ∃ vb vc, s.resolve b = .ok vb ∧ s.resolve c = .ok vc ∧
      Wrote s t 3 a (reduce (vb.toNat + vc.toNat))
  | .mult a b c => ∃ vb vc, s.resolve b = .ok vb ∧ s.resolve c = .ok vc ∧
      Wrote s t 3 a (reduce (vb.toNat * vc.toNat))
  | .mod a b c => ∃ vb vc, s.resolve b = .ok vb ∧ s.resolve c = .ok vc ∧ vc ≠ 0 ∧
      Wrote s t 3 a (BitVec.ofNat 15 (vb.toNat % vc.toNat))
  | .and a b c => ∃ vb vc, s.resolve b = .ok vb ∧ s.resolve c = .ok vc ∧ Wrote s t 3 a (vb &&& vc)
  | .or a b c => ∃ vb vc, s.resolve b = .ok vb ∧ s.resolve c = .ok vc ∧ Wrote s t 3 a (vb ||| vc)
  | .not a b => ∃ vb, s.resolve b = .ok vb ∧ Wrote s t 2 a (BitVec.ofNat 15 (Config.maxValue - vb.toNat))
  | .rmem a b => ∃ addr, s.resolve b = .ok addr ∧ (s.memRead addr).toNat ≤ 32767 ∧
      Wrote s t 2 a (trunc15 (s.memRead addr))
  | .wmem a b => ∃ addr v npc, s.resolve a = .ok addr ∧ s.resolve b = .ok v ∧
      s.checkedNpc 2 = .ok npc ∧ t = (s.memWrite addr v).setPc npc
  | .call a => ∃ p npc, s.resolve a = .ok p ∧ s.checkedNpc 1 = .ok npc ∧ s.stackFull = false ∧
      t = (s.pushValue npc).setPc p
  | .ret => (s.stack = [] ∧ t = s.halt) ∨
      ∃ p rest, s.stack = p :: rest ∧ t = { s with stack := rest }.setPc p
  | .out a => ∃ v npc, s.resolve a = .ok v ∧ s.checkedNpc 1 = .ok npc ∧ s.outputRoom ≠ some 0 ∧
      t = { s with output := s.output ++ [v], outputRoom := s.outputRoom.map (fun n => n - 1) }.setPc npc
  | .in_ a => ∃ d npc, a = .reg d ∧ s.checkedNpc 1 = .ok npc ∧
      ((s.nextChar = .wait ∧ t = s) ∨ ∃ ch buffer lines, s.nextChar = .char ch buffer lines ∧
        t = ({ s with inbuf := buffer, input := lines }.setReg d ch).setPc npc)
  | .noop => ∃ npc, s.checkedNpc 0 = .ok npc ∧ t = s.setPc npc

/-- Which checks of each instruction can raise `k`; their order is in the instruction's own rule. -/
def Raises (s : State) (k : Fault) : Instr → Prop
  | .halt | .ret => False
  | .noop => s.checkedNpc 0 = .error k
  | .set a b | .not a b => dst a = .error k ∨ s.resolve b = .error k ∨ s.checkedNpc 2 = .error k
  | .push a | .call a => s.resolve a = .error k ∨ s.checkedNpc 1 = .error k ∨
      (s.stackFull = true ∧ k = .stackOverflow)
  | .pop a => dst a = .error k ∨ (s.stack = [] ∧ k = .stackUnderflow) ∨ s.checkedNpc 1 = .error k
  | .eq a b c | .gt a b c | .add a b c | .mult a b c | .and a b c | .or a b c =>
      dst a = .error k ∨ s.resolve b = .error k ∨ s.resolve c = .error k ∨ s.checkedNpc 3 = .error k
  | .mod a b c => dst a = .error k ∨ s.resolve b = .error k ∨ s.resolve c = .error k ∨
      (s.resolve c = .ok 0 ∧ k = .divisionByZero) ∨ s.checkedNpc 3 = .error k
  | .jmp a => s.resolve a = .error k
  | .jt a b | .jf a b => s.resolve a = .error k ∨ s.resolve b = .error k ∨ s.checkedNpc 2 = .error k
  | .rmem a b => dst a = .error k ∨ s.resolve b = .error k ∨
      (∃ addr, s.resolve b = .ok addr ∧ k = .valueOutOfRange addr (s.memRead addr)) ∨
      s.checkedNpc 2 = .error k
  | .wmem a b => s.resolve a = .error k ∨ s.resolve b = .error k ∨ s.checkedNpc 2 = .error k
  | .out a => s.resolve a = .error k ∨ s.checkedNpc 1 = .error k ∨
      (s.outputRoom = some 0 ∧ k = .environmentFailure)
  | .in_ a => dst a = .error k ∨ s.checkedNpc 1 = .error k ∨
      (s.nextChar = .failure ∧ k = .environmentFailure)

theorem unary_effect {s t : State} {f : Value → Value} {a b : Operand} (h : s.unary f a b = .ok t) :
    ∃ v, s.resolve b = .ok v ∧ Wrote s t 2 a (f v) := by
  obtain ⟨d, v, npc, hd, hb, hn, rfl⟩ := unary_eq_ok_iff.1 h
  exact ⟨v, hb, d, npc, dst_eq_ok_iff.1 hd, hn, rfl⟩

theorem binary_effect {s t : State} {f : Value → Value → Value} {a b c : Operand}
    (h : s.binary f a b c = .ok t) :
    ∃ vb vc, s.resolve b = .ok vb ∧ s.resolve c = .ok vc ∧ Wrote s t 3 a (f vb vc) := by
  obtain ⟨d, vb, vc, npc, hd, hb, hc, hn, rfl⟩ := binary_eq_ok_iff.1 h
  exact ⟨vb, vc, hb, hc, d, npc, dst_eq_ok_iff.1 hd, hn, rfl⟩

theorem jumpIf_effect {s t : State} {f : Value → Bool} {a b : Operand} (h : s.jumpIf f a b = .ok t) :
    ∃ v p, s.resolve a = .ok v ∧ t = s.setPc p ∧
      (if f v then s.resolve b = .ok p else s.checkedNpc 2 = .ok p) := by
  obtain ⟨v, hv, h⟩ := bind_eq_ok_iff.1 h
  cases hf : f v <;> rw [hf] at h
  · obtain ⟨p, hp, h⟩ := bind_eq_ok_iff.1 h
    cases h
    exact ⟨v, p, hv, rfl, by simpa [hf] using hp⟩
  · obtain ⟨p, hp, h⟩ := bind_eq_ok_iff.1 h
    cases h
    exact ⟨v, p, hv, rfl, by simpa [hf] using hp⟩

theorem unary_raises {s : State} {f : Value → Value} {a b : Operand} {k : Fault}
    (h : s.unary f a b = .error k) :
    dst a = .error k ∨ s.resolve b = .error k ∨ s.checkedNpc 2 = .error k := by
  rcases unary_eq_error_iff.1 h with h | ⟨_, -, h | ⟨_, -, h⟩⟩ <;> simp [h]

theorem binary_raises {s : State} {f : Value → Value → Value} {a b c : Operand} {k : Fault}
    (h : s.binary f a b c = .error k) :
    dst a = .error k ∨ s.resolve b = .error k ∨ s.resolve c = .error k ∨
      s.checkedNpc 3 = .error k := by
  rcases binary_eq_error_iff.1 h with h | ⟨_, -, h | ⟨_, -, h | ⟨_, -, h⟩⟩⟩ <;> simp [h]

theorem jumpIf_raises {s : State} {f : Value → Bool} {a b : Operand} {k : Fault}
    (h : s.jumpIf f a b = .error k) :
    s.resolve a = .error k ∨ s.resolve b = .error k ∨ s.checkedNpc 2 = .error k := by
  rcases bind_eq_error_iff.1 h with h | ⟨v, -, h⟩
  · exact .inl h
  · cases hf : f v <;> rw [hf] at h
    · rcases bind_eq_error_iff.1 h with h | ⟨_, -, h⟩
      · exact .inr (.inr h)
      · cases h
    · rcases bind_eq_error_iff.1 h with h | ⟨_, -, h⟩
      · exact .inr (.inl h)
      · cases h

/-- The instruction is the pseudocode `r`, committed: it has its effect when `r` raises nothing, and what `r`
raises is one of its faults. -/
def Commits (s : State) (i : Instr) (r : Except Fault State) : Prop :=
  exec i s = s.commit r ∧ (∀ t, r = .ok t → Effect s t i) ∧ ∀ k, r = .error k → Raises s k i

theorem push_commits (s : State) (a : Operand) : ∃ r, Commits s (.push a) r := by
  refine ⟨_, rfl, fun t h => ?_, fun k h => ?_⟩
  · obtain ⟨v, hv, h⟩ := bind_eq_ok_iff.1 h
    obtain ⟨npc, hn, h⟩ := bind_eq_ok_iff.1 h
    obtain ⟨u, hu, h⟩ := bind_eq_ok_iff.1 h
    obtain ⟨hf, rfl⟩ := checkedPush_eq_ok_iff.1 hu
    cases h
    exact ⟨v, npc, hv, hn, hf, rfl⟩
  · rcases bind_eq_error_iff.1 h with h | ⟨_, -, h⟩
    · exact .inl h
    · rcases bind_eq_error_iff.1 h with h | ⟨_, -, h⟩
      · exact .inr (.inl h)
      · rcases bind_eq_error_iff.1 h with h | ⟨_, -, h⟩
        · exact .inr (.inr (checkedPush_eq_error_iff.1 h))
        · cases h

theorem pop_commits (s : State) (a : Operand) : ∃ r, Commits s (.pop a) r := by
  refine ⟨_, rfl, fun t h => ?_, fun k h => ?_⟩
  · obtain ⟨d, hd, h⟩ := bind_eq_ok_iff.1 h
    cases hs : s.stack with
    | nil => rw [hs] at h; cases h
    | cons v rest =>
      rw [hs] at h
      obtain ⟨npc, hn, h⟩ := bind_eq_ok_iff.1 h
      cases h
      exact ⟨d, v, rest, npc, dst_eq_ok_iff.1 hd, hs, hn, rfl⟩
  · rcases bind_eq_error_iff.1 h with h | ⟨_, -, h⟩
    · exact .inl h
    · cases hs : s.stack with
      | nil => rw [hs] at h; cases h; exact .inr (.inl ⟨hs, rfl⟩)
      | cons v rest =>
        rw [hs] at h
        rcases bind_eq_error_iff.1 h with h | ⟨_, -, h⟩
        · exact .inr (.inr h)
        · cases h

theorem jmp_commits (s : State) (a : Operand) : ∃ r, Commits s (.jmp a) r := by
  refine ⟨_, rfl, fun t h => ?_, fun k h => ?_⟩
  · obtain ⟨v, hv, h⟩ := bind_eq_ok_iff.1 h
    cases h
    exact ⟨v, hv, rfl⟩
  · rcases bind_eq_error_iff.1 h with h | ⟨_, -, h⟩
    · exact h
    · cases h

theorem mod_commits (s : State) (a b c : Operand) : ∃ r, Commits s (.mod a b c) r := by
  refine ⟨_, rfl, fun t h => ?_, fun k h => ?_⟩
  · obtain ⟨d, hd, h⟩ := bind_eq_ok_iff.1 h
    obtain ⟨vb, hb, h⟩ := bind_eq_ok_iff.1 h
    obtain ⟨vc, hc, h⟩ := bind_eq_ok_iff.1 h
    obtain ⟨_, he, h⟩ := bind_eq_ok_iff.1 h
    obtain ⟨npc, hn, h⟩ := bind_eq_ok_iff.1 h
    cases h
    exact ⟨vb, vc, hb, hc, of_decide_eq_true (ensure_eq_ok_iff.1 he), d, npc,
      dst_eq_ok_iff.1 hd, hn, rfl⟩
  · rcases bind_eq_error_iff.1 h with h | ⟨_, -, h⟩
    · exact .inl h
    · rcases bind_eq_error_iff.1 h with h | ⟨_, -, h⟩
      · exact .inr (.inl h)
      · rcases bind_eq_error_iff.1 h with h | ⟨vc, hc, h⟩
        · exact .inr (.inr (.inl h))
        · rcases bind_eq_error_iff.1 h with h | ⟨_, -, h⟩
          · obtain ⟨hz, hk⟩ := ensure_eq_error_iff.1 h
            have hz : vc = 0 := by simpa using hz
            exact .inr (.inr (.inr (.inl ⟨hz ▸ hc, hk⟩)))
          · rcases bind_eq_error_iff.1 h with h | ⟨_, -, h⟩
            · exact .inr (.inr (.inr (.inr h)))
            · cases h

theorem rmem_commits (s : State) (a b : Operand) : ∃ r, Commits s (.rmem a b) r := by
  refine ⟨_, rfl, fun t h => ?_, fun k h => ?_⟩
  · obtain ⟨d, hd, h⟩ := bind_eq_ok_iff.1 h
    obtain ⟨addr, hb, h⟩ := bind_eq_ok_iff.1 h
    obtain ⟨_, he, h⟩ := bind_eq_ok_iff.1 h
    obtain ⟨npc, hn, h⟩ := bind_eq_ok_iff.1 h
    cases h
    exact ⟨addr, hb, of_decide_eq_true (ensure_eq_ok_iff.1 he), d, npc, dst_eq_ok_iff.1 hd, hn, rfl⟩
  · rcases bind_eq_error_iff.1 h with h | ⟨_, -, h⟩
    · exact .inl h
    · rcases bind_eq_error_iff.1 h with h | ⟨addr, ha, h⟩
      · exact .inr (.inl h)
      · rcases bind_eq_error_iff.1 h with h | ⟨_, -, h⟩
        · exact .inr (.inr (.inl ⟨addr, ha, (ensure_eq_error_iff.1 h).2⟩))
        · rcases bind_eq_error_iff.1 h with h | ⟨_, -, h⟩
          · exact .inr (.inr (.inr h))
          · cases h

theorem wmem_commits (s : State) (a b : Operand) : ∃ r, Commits s (.wmem a b) r := by
  refine ⟨_, rfl, fun t h => ?_, fun k h => ?_⟩
  · obtain ⟨addr, ha, h⟩ := bind_eq_ok_iff.1 h
    obtain ⟨v, hb, h⟩ := bind_eq_ok_iff.1 h
    obtain ⟨npc, hn, h⟩ := bind_eq_ok_iff.1 h
    cases h
    exact ⟨addr, v, npc, ha, hb, hn, rfl⟩
  · rcases bind_eq_error_iff.1 h with h | ⟨_, -, h⟩
    · exact .inl h
    · rcases bind_eq_error_iff.1 h with h | ⟨_, -, h⟩
      · exact .inr (.inl h)
      · rcases bind_eq_error_iff.1 h with h | ⟨_, -, h⟩
        · exact .inr (.inr h)
        · cases h

theorem call_commits (s : State) (a : Operand) : ∃ r, Commits s (.call a) r := by
  refine ⟨_, rfl, fun t h => ?_, fun k h => ?_⟩
  · obtain ⟨p, hp, h⟩ := bind_eq_ok_iff.1 h
    obtain ⟨npc, hn, h⟩ := bind_eq_ok_iff.1 h
    obtain ⟨u, hu, h⟩ := bind_eq_ok_iff.1 h
    obtain ⟨hf, rfl⟩ := checkedPush_eq_ok_iff.1 hu
    cases h
    exact ⟨p, npc, hp, hn, hf, rfl⟩
  · rcases bind_eq_error_iff.1 h with h | ⟨_, -, h⟩
    · exact .inl h
    · rcases bind_eq_error_iff.1 h with h | ⟨_, -, h⟩
      · exact .inr (.inl h)
      · rcases bind_eq_error_iff.1 h with h | ⟨_, -, h⟩
        · exact .inr (.inr (checkedPush_eq_error_iff.1 h))
        · cases h

theorem ret_commits (s : State) : ∃ r, Commits s .ret r := by
  cases hs : s.stack with
  | nil =>
    exact ⟨.ok s.halt, by simp [exec, execRet, hs], fun t h => by cases h; exact .inl ⟨hs, rfl⟩,
      fun k h => by cases h⟩
  | cons p rest =>
    exact ⟨.ok ({ s with stack := rest }.setPc p), by simp [exec, execRet, hs],
      fun t h => by cases h; exact .inr ⟨p, rest, hs, rfl⟩, fun k h => by cases h⟩

theorem out_commits (s : State) (a : Operand) : ∃ r, Commits s (.out a) r := by
  refine ⟨_, rfl, fun t h => ?_, fun k h => ?_⟩
  · obtain ⟨v, hv, h⟩ := bind_eq_ok_iff.1 h
    obtain ⟨npc, hn, h⟩ := bind_eq_ok_iff.1 h
    obtain ⟨u, hu, h⟩ := bind_eq_ok_iff.1 h
    obtain ⟨hr, rfl⟩ := outChar_eq_ok_iff.1 hu
    cases h
    exact ⟨v, npc, hv, hn, hr, rfl⟩
  · rcases bind_eq_error_iff.1 h with h | ⟨_, -, h⟩
    · exact .inl h
    · rcases bind_eq_error_iff.1 h with h | ⟨_, -, h⟩
      · exact .inr (.inl h)
      · rcases bind_eq_error_iff.1 h with h | ⟨_, -, h⟩
        · exact .inr (.inr (outChar_eq_error_iff.1 h))
        · cases h

theorem in_commits (s : State) (a : Operand) : ∃ r, Commits s (.in_ a) r := by
  refine ⟨_, rfl, fun t h => ?_, fun k h => ?_⟩
  · obtain ⟨d, hd, h⟩ := bind_eq_ok_iff.1 h
    obtain ⟨npc, hn, h⟩ := bind_eq_ok_iff.1 h
    refine ⟨d, npc, dst_eq_ok_iff.1 hd, hn, ?_⟩
    cases hc : s.nextChar with
    | char ch buffer lines => rw [hc] at h; cases h; exact .inr ⟨ch, buffer, lines, rfl, rfl⟩
    | wait => rw [hc] at h; cases h; exact .inl ⟨rfl, rfl⟩
    | failure => rw [hc] at h; cases h
  · rcases bind_eq_error_iff.1 h with h | ⟨_, -, h⟩
    · exact .inl h
    · rcases bind_eq_error_iff.1 h with h | ⟨_, -, h⟩
      · exact .inr (.inl h)
      · cases hc : s.nextChar with
        | char ch buffer lines => rw [hc] at h; cases h
        | wait => rw [hc] at h; cases h
        | failure => rw [hc] at h; cases h; exact .inr (.inr ⟨hc, rfl⟩)

theorem noop_commits (s : State) : ∃ r, Commits s .noop r := by
  refine ⟨_, rfl, fun t h => ?_, fun k h => ?_⟩
  · obtain ⟨npc, hn, h⟩ := bind_eq_ok_iff.1 h
    cases h
    exact ⟨npc, hn, rfl⟩
  · rcases bind_eq_error_iff.1 h with h | ⟨_, -, h⟩
    · exact h
    · cases h

/-- Every instruction is pseudocode that commits. -/
theorem exec_commits (i : Instr) (s : State) : ∃ r, Commits s i r := by
  cases i with
  | halt => exact ⟨.ok s.halt, rfl, fun t h => by cases h; rfl, fun k h => by cases h⟩
  | set a b => exact ⟨_, rfl, fun t h => unary_effect h, fun k h => unary_raises h⟩
  | push a => exact push_commits s a
  | pop a => exact pop_commits s a
  | eq a b c => exact ⟨_, rfl, fun t h => binary_effect h, fun k h => binary_raises h⟩
  | gt a b c => exact ⟨_, rfl, fun t h => binary_effect h, fun k h => binary_raises h⟩
  | jmp a => exact jmp_commits s a
  | jt a b => exact ⟨_, rfl, fun t h => jumpIf_effect h, fun k h => jumpIf_raises h⟩
  | jf a b => exact ⟨_, rfl, fun t h => jumpIf_effect h, fun k h => jumpIf_raises h⟩
  | add a b c => exact ⟨_, rfl, fun t h => binary_effect h, fun k h => binary_raises h⟩
  | mult a b c => exact ⟨_, rfl, fun t h => binary_effect h, fun k h => binary_raises h⟩
  | mod a b c => exact mod_commits s a b c
  | and a b c => exact ⟨_, rfl, fun t h => binary_effect h, fun k h => binary_raises h⟩
  | or a b c => exact ⟨_, rfl, fun t h => binary_effect h, fun k h => binary_raises h⟩
  | not a b => exact ⟨_, rfl, fun t h => unary_effect h, fun k h => unary_raises h⟩
  | rmem a b => exact rmem_commits s a b
  | wmem a b => exact wmem_commits s a b
  | call a => exact call_commits s a
  | ret => exact ret_commits s
  | out a => exact out_commits s a
  | in_ a => exact in_commits s a
  | noop => exact noop_commits s

/-- What an instruction that answers `t` did: it entered one of its faults, or it had its effect. -/
theorem exec_cases {i : Instr} {s t : State} (h : exec i s = .next t) :
    (∃ k, Raises s k i ∧ t = s.raise k) ∨ Effect s t i := by
  obtain ⟨r, hr, hok, herr⟩ := exec_commits i s
  rw [hr] at h
  rcases commit_eq_next_iff.1 h with h | ⟨k, hk, h⟩
  · exact .inr (hok t h)
  · exact .inl ⟨k, herr k hk, h⟩

/-! ### The step -/

theorem step_running {s : State} {i : Instr} (hr : s.run = .running) (hf : s.fetch = .ok i) :
    step s = exec i s := by
  simp [step, hr, hf]

theorem step_fetchFault {s : State} {k : Fault} (hr : s.run = .running) (hf : s.fetch = .error k) :
    step s = .next (s.raise k) := by
  simp [step, hr, hf]

theorem step_stopped {s : State} (hr : s.run ≠ .running) : step s = .next s := by
  cases h : s.run with
  | running => exact absurd h hr
  | halted => simp [step, h]
  | faulted k => simp [step, h]

/-- What a step that answers `t` did: nothing, in a terminal state; or it entered a fault; or it had the
effect of the instruction fetched. -/
theorem step_cases {s t : State} (h : step s = .next t) :
    (s.run ≠ .running ∧ t = s) ∨
    (s.run = .running ∧ ∃ k, t = s.raise k ∧
      (s.fetch = .error k ∨ ∃ i, s.fetch = .ok i ∧ Raises s k i)) ∨
    (s.run = .running ∧ ∃ i, s.fetch = .ok i ∧ Effect s t i) := by
  by_cases hr : s.run = .running
  · cases hf : s.fetch with
    | ok i =>
      rw [step_running hr hf] at h
      rcases exec_cases h with ⟨k, hk, ht⟩ | he
      · exact .inr (.inl ⟨hr, k, ht, .inr ⟨i, rfl, hk⟩⟩)
      · exact .inr (.inr ⟨hr, i, rfl, he⟩)
    | error k =>
      rw [step_fetchFault hr hf] at h
      cases h
      exact .inr (.inl ⟨hr, k, rfl, .inl rfl⟩)
  · rw [step_stopped hr] at h
    cases h
    exact .inl ⟨hr, rfl⟩

/-- An instruction that does not fault leaves a running machine Running or Halted. -/
theorem Effect.run {s t : State} {i : Instr} (h : Effect s t i) : t.run = s.run ∨ t.run = .halted := by
  cases i with
  | halt => exact .inr (by simp [show t = s.halt from h])
  | set a b => obtain ⟨v, -, d, p, -, -, rfl⟩ := h; exact .inl rfl
  | push a => obtain ⟨v, p, -, -, -, rfl⟩ := h; exact .inl rfl
  | pop a => obtain ⟨d, v, r, p, -, -, -, rfl⟩ := h; exact .inl rfl
  | eq a b c => obtain ⟨x, y, -, -, d, p, -, -, rfl⟩ := h; exact .inl rfl
  | gt a b c => obtain ⟨x, y, -, -, d, p, -, -, rfl⟩ := h; exact .inl rfl
  | jmp a => obtain ⟨v, -, rfl⟩ := h; exact .inl rfl
  | jt a b => obtain ⟨v, p, -, rfl, -⟩ := h; exact .inl rfl
  | jf a b => obtain ⟨v, p, -, rfl, -⟩ := h; exact .inl rfl
  | add a b c => obtain ⟨x, y, -, -, d, p, -, -, rfl⟩ := h; exact .inl rfl
  | mult a b c => obtain ⟨x, y, -, -, d, p, -, -, rfl⟩ := h; exact .inl rfl
  | mod a b c => obtain ⟨x, y, -, -, -, d, p, -, -, rfl⟩ := h; exact .inl rfl
  | and a b c => obtain ⟨x, y, -, -, d, p, -, -, rfl⟩ := h; exact .inl rfl
  | or a b c => obtain ⟨x, y, -, -, d, p, -, -, rfl⟩ := h; exact .inl rfl
  | not a b => obtain ⟨x, -, d, p, -, -, rfl⟩ := h; exact .inl rfl
  | rmem a b => obtain ⟨x, -, -, d, p, -, -, rfl⟩ := h; exact .inl rfl
  | wmem a b => obtain ⟨x, v, p, -, -, -, rfl⟩ := h; exact .inl rfl
  | call a => obtain ⟨v, p, -, -, -, rfl⟩ := h; exact .inl rfl
  | ret =>
    rcases h with ⟨-, rfl⟩ | ⟨p, r, -, rfl⟩
    · exact .inr rfl
    · exact .inl rfl
  | out a => obtain ⟨v, p, -, -, -, rfl⟩ := h; exact .inl rfl
  | in_ a =>
    obtain ⟨d, p, -, -, ⟨-, rfl⟩ | ⟨c, b, l, -, rfl⟩⟩ := h
    · exact .inl rfl
    · exact .inl rfl
  | noop => obtain ⟨p, -, rfl⟩ := h; exact .inl rfl

/-! ### Runs -/

@[simp] theorem runFor_zero (s : State) : s.runFor 0 = s := rfl

@[simp] theorem runFor_succ (s : State) (k : Nat) : s.runFor (k + 1) = s.after.runFor k := rfl

theorem after_of_step {s t : State} (h : step s = .next t) : s.after = t := by
  simp [State.after, h]

/-- A state whose step answers the state itself is never left. -/
theorem runFor_fixed {s : State} (h : step s = .next s) (k : Nat) : s.runFor k = s := by
  induction k with
  | zero => rfl
  | succ k ih => rw [runFor_succ, after_of_step h, ih]

end Sys2Proof.Machine
end

