-- ==== Sys2Proof/Laws/Params.lean ====
section
/-! SUPPORT. The numbers of the parameter table (00_scope R4) are one system: how they follow from each other, and
that the types and tables of the model are the ones they give. -/

namespace Sys2Proof

/-! ### The types -/

theorem Word_eq_wordBits : Word = BitVec Config.wordBits := rfl

theorem Value_eq_valueBits : Value = BitVec Config.valueBits := rfl

/-- Characters cross the interfaces at the width of a value. -/
theorem Value_eq_charBits : Value = BitVec Config.charBits := rfl

theorem Addr_eq_addrBits : Addr = BitVec Config.addrBits := rfl

theorem RegIx_eq_numRegs : RegIx = Fin Config.numRegs := rfl

/-! ### The numbers -/

theorem memCells_eq_two_pow : Config.memCells = 2 ^ Config.addrBits := rfl

theorem maxAddr_succ : Config.maxAddr + 1 = Config.memCells := rfl

theorem modulus_eq_two_pow : Config.modulus = 2 ^ Config.valueBits := rfl

theorem maxValue_succ : Config.maxValue + 1 = Config.modulus := rfl

theorem regBase_eq_modulus : Config.regBase = Config.modulus := rfl

theorem regTop_succ : Config.regTop + 1 = Config.regBase + Config.numRegs := rfl

theorem imageMaxBytes_eq_two_mul : Config.imageMaxBytes = 2 * Config.memCells := rfl

/-! ### The tables -/

theorem nargsTable_length : nargsTable.length = Config.numOpcodes := rfl

theorem nargsTable_le_maxArgs : ∀ n ∈ nargsTable, n ≤ Config.maxArgs := by decide

/-- An opcode word has a table entry exactly when it is below `NOPCODES` (30_encoding R51). -/
theorem nargs?_isSome_iff (op : Word) : (nargs? op).isSome ↔ op.toNat < Config.numOpcodes := by
  rw [nargs?, Option.isSome_iff_ne_none, Ne, List.getElem?_eq_none_iff, nargsTable_length, Nat.not_le]

/-- The size test of the loader in words, as 70_reset_and_hazards R151 writes it. -/
theorem imageMaxBytes_lt_iff {n : Nat} (h : n % 2 = 0) :
    Config.imageMaxBytes < n ↔ Config.memCells < n / 2 := by
  simp only [Config.imageMaxBytes, Config.memCells]
  omega

end Sys2Proof
end

