-- ==== Sys2Proof/Laws/PerInstr.lean ====
section
/-! SUPPORT. Statements made per instruction. -/

namespace Sys2Proof.Laws.EncodeShape

/-- The words of an instruction are as many as the table says for its opcode word, and every one after the
first is the word of an operand (30_encoding R50, R52). -/
def Statement (i : Instr) : Prop :=
  nargs? i.opcode = some i.operands.length ∧ (encode i).length = 1 + i.operands.length

theorem halt : Statement .halt := ⟨rfl, rfl⟩
theorem set (a b : Operand) : Statement (.set a b) := ⟨rfl, rfl⟩
theorem push (a : Operand) : Statement (.push a) := ⟨rfl, rfl⟩
theorem pop (a : Operand) : Statement (.pop a) := ⟨rfl, rfl⟩
theorem eq (a b c : Operand) : Statement (.eq a b c) := ⟨rfl, rfl⟩
theorem gt (a b c : Operand) : Statement (.gt a b c) := ⟨rfl, rfl⟩
theorem jmp (a : Operand) : Statement (.jmp a) := ⟨rfl, rfl⟩
theorem jt (a b : Operand) : Statement (.jt a b) := ⟨rfl, rfl⟩
theorem jf (a b : Operand) : Statement (.jf a b) := ⟨rfl, rfl⟩
theorem add (a b c : Operand) : Statement (.add a b c) := ⟨rfl, rfl⟩
theorem mult (a b c : Operand) : Statement (.mult a b c) := ⟨rfl, rfl⟩
theorem mod (a b c : Operand) : Statement (.mod a b c) := ⟨rfl, rfl⟩
theorem and (a b c : Operand) : Statement (.and a b c) := ⟨rfl, rfl⟩
theorem or (a b c : Operand) : Statement (.or a b c) := ⟨rfl, rfl⟩
theorem not (a b : Operand) : Statement (.not a b) := ⟨rfl, rfl⟩
theorem rmem (a b : Operand) : Statement (.rmem a b) := ⟨rfl, rfl⟩
theorem wmem (a b : Operand) : Statement (.wmem a b) := ⟨rfl, rfl⟩
theorem call (a : Operand) : Statement (.call a) := ⟨rfl, rfl⟩
theorem ret : Statement .ret := ⟨rfl, rfl⟩
theorem out (a : Operand) : Statement (.out a) := ⟨rfl, rfl⟩
theorem in_ (a : Operand) : Statement (.in_ a) := ⟨rfl, rfl⟩
theorem noop : Statement .noop := ⟨rfl, rfl⟩

end Sys2Proof.Laws.EncodeShape
end

