-- ==== Sys2Proof/Tests/Slice0.lean ====
section
/-! SUPPORT. Tests on fixed values. Expected results come from spec/95_test_vectors.md (its ids are named:
E1 to E30, T0 to T47, L1 to L7, S1 to S16) or from the encodings of 30_encoding R57 and R58. Then, for every
statement with hypotheses, a witness that meets them, clause by clause at the boundaries. -/

namespace Sys2Proof.Tests

open Sys2Proof.Machine Sys2Proof.Claims

/-! ### WellFormed: a term each check refuses -/

theorem test_wf_operand_refuses_below_range :
    (Operand.invalid 0).wf = false ∧ (Operand.invalid 32775).wf = false ∧
    (Operand.invalid 32776).wf = true := by decide

theorem test_wf_refuses_first_operand :
    ∀ i ∈ ([.push (.invalid 5), .pop (.invalid 5), .jmp (.invalid 5), .call (.invalid 5),
      .out (.invalid 5), .in_ (.invalid 5), .set (.invalid 5) (.lit 0), .jt (.invalid 5) (.lit 0),
      .jf (.invalid 5) (.lit 0), .not (.invalid 5) (.lit 0), .rmem (.invalid 5) (.lit 0),
      .wmem (.invalid 5) (.lit 0), .eq (.invalid 5) (.lit 0) (.lit 0), .gt (.invalid 5) (.lit 0) (.lit 0),
      .add (.invalid 5) (.lit 0) (.lit 0), .mult (.invalid 5) (.lit 0) (.lit 0),
      .mod (.invalid 5) (.lit 0) (.lit 0), .and (.invalid 5) (.lit 0) (.lit 0),
      .or (.invalid 5) (.lit 0) (.lit 0)] : List Instr), i.wf = false := by decide

theorem test_wf_refuses_second_operand :
    ∀ i ∈ ([.set (.reg 0) (.invalid 5), .jt (.lit 0) (.invalid 5), .jf (.lit 0) (.invalid 5),
      .not (.reg 0) (.invalid 5), .rmem (.reg 0) (.invalid 5), .wmem (.lit 0) (.invalid 5),
      .eq (.reg 0) (.invalid 5) (.lit 0), .gt (.reg 0) (.invalid 5) (.lit 0),
      .add (.reg 0) (.invalid 5) (.lit 0), .mult (.reg 0) (.invalid 5) (.lit 0),
      .mod (.reg 0) (.invalid 5) (.lit 0), .and (.reg 0) (.invalid 5) (.lit 0),
      .or (.reg 0) (.invalid 5) (.lit 0)] : List Instr), i.wf = false := by decide

theorem test_wf_refuses_third_operand :
    ∀ i ∈ ([.eq (.reg 0) (.lit 0) (.invalid 5), .gt (.reg 0) (.lit 0) (.invalid 5),
      .add (.reg 0) (.lit 0) (.invalid 5), .mult (.reg 0) (.lit 0) (.invalid 5),
      .mod (.reg 0) (.lit 0) (.invalid 5), .and (.reg 0) (.lit 0) (.invalid 5),
      .or (.reg 0) (.lit 0) (.invalid 5)] : List Instr), i.wf = false := by decide

/-! ### Decode: every constructor's word, written out from the encoding of 30_encoding R57, R58 -/

/-- The instruction a list of words begins with. -/
def first (ws : List Word) : Option Instr :=
  match decode ws with
  | .ok (i, _) => some i
  | .error _ => none

theorem test_decode_halt : first [0b0000000000000000] = some .halt := by decide
theorem test_decode_set : first [0b0000000000000001, 0b1000000000000001, 0b0000000000101010] =
    some (.set (.reg 1) (.lit 42)) := by decide
theorem test_decode_push : first [0b0000000000000010, 0b1000000000000010] =
    some (.push (.reg 2)) := by decide
theorem test_decode_pop : first [0b0000000000000011, 0b1000000000000111] =
    some (.pop (.reg 7)) := by decide
theorem test_decode_eq : first [0b0000000000000100, 0b1000000000000000, 0b1000000000000001,
    0b0000000000001001] = some (.eq (.reg 0) (.reg 1) (.lit 9)) := by decide
theorem test_decode_gt : first [0b0000000000000101, 0b1000000000000000, 0b1000000000000001,
    0b0000000000001001] = some (.gt (.reg 0) (.reg 1) (.lit 9)) := by decide
theorem test_decode_jmp : first [0b0000000000000110, 0b0111111111111111] =
    some (.jmp (.lit 32767)) := by decide
theorem test_decode_jt : first [0b0000000000000111, 0b1000000000000000, 0b0000000111110100] =
    some (.jt (.reg 0) (.lit 500)) := by decide
theorem test_decode_jf : first [0b0000000000001000, 0b0000000000000001, 0b1000000000001000] =
    some (.jf (.lit 1) (.invalid 0x8008)) := by decide
theorem test_decode_add : first [0b0000000000001001, 0b1000000000000000, 0b1000000000000011,
    0b0000000000000001] = some (.add (.reg 0) (.reg 3) (.lit 1)) := by decide
theorem test_decode_mult : first [0b0000000000001010, 0b1000000000000100, 0b1000000000000101,
    0b1000000000000110] = some (.mult (.reg 4) (.reg 5) (.reg 6)) := by decide
theorem test_decode_mod : first [0b0000000000001011, 0b1000000000000110, 0b1000000000000101,
    0b0000001111101000] = some (.mod (.reg 6) (.reg 5) (.lit 1000)) := by decide
theorem test_decode_and : first [0b0000000000001100, 0b1000000000000000, 0b0111111100001111,
    0b0000111111110000] = some (.and (.reg 0) (.lit 0x7F0F) (.lit 0x0FF0)) := by decide
theorem test_decode_or : first [0b0000000000001101, 0b1000000000000001, 0b0111111100001111,
    0b0000111111110000] = some (.or (.reg 1) (.lit 0x7F0F) (.lit 0x0FF0)) := by decide
theorem test_decode_not : first [0b0000000000001110, 0b1000000000000010, 0b0000000000000000] =
    some (.not (.reg 2) (.lit 0)) := by decide
theorem test_decode_rmem : first [0b0000000000001111, 0b1000000000000001, 0b1000000000000000] =
    some (.rmem (.reg 1) (.reg 0)) := by decide
theorem test_decode_wmem : first [0b0000000000010000, 0b0000000111110100, 0b1000000000000011] =
    some (.wmem (.lit 500) (.reg 3)) := by decide
theorem test_decode_call : first [0b0000000000010001, 0b0000000000001011] =
    some (.call (.lit 11)) := by decide
theorem test_decode_ret : first [0b0000000000010010] = some .ret := by decide
theorem test_decode_out : first [0b0000000000010011, 0b0000000001000001] =
    some (.out (.lit 65)) := by decide
theorem test_decode_in : first [0b0000000000010100, 0b1000000000000000] =
    some (.in_ (.reg 0)) := by decide
theorem test_decode_noop : first [0b0000000000010101] = some .noop := by decide

/-- T46, P6f, T25: the opcode word is compared as a whole 16-bit number. -/
theorem test_decode_refuses_opcodes :
    first [22, 0, 0, 0] = none ∧ first [32768, 0, 0, 0] = none ∧ first [65535, 0, 0, 0] = none ∧
    first [0b0000000000100000, 0, 0, 0] = none := by decide

/-- S8, S9 (a): image bytes, low byte first. -/
theorem test_image_bytes :
    wordsOfBytes [9, 0, 1, 0] = [9, 1] ∧ wordsOfBytes [9, 0, 0, 1] = [9, 256] ∧
    wordsOfBytes [0, 128] = [32768] ∧ wordsOfBytes [57, 48] = [12345] := by decide

/-- The table's numbering: the second word is bits 31 to 16, and missing words are 0. -/
theorem test_table_words :
    decodeTableWord 16 0x0001 = some (.set (.lit 0) (.lit 0)) ∧
    decodeTableWord 32 0x80020002 = some (.push (.reg 2)) ∧ decodeTableWord 16 22 = none := by decide

/-! ### One step each, from `pc = 100` (95_test_vectors section 2.1) -/

/-- The words at 100 onwards, `pc` at 100, all else as at reset. -/
def at100 (ws : List Word) : State := { State.reset with mem := Memory.ofWords 100 ws, pc := 100 }

theorem test_E1_halt : (at100 [0]).after.run = .halted ∧ (at100 [0]).after.pc = 101 := by decide

theorem test_E2_noop : (at100 [21]).after = { at100 [21] with pc := 101 } := by decide

theorem test_E3_set : ((at100 [1, 32769, 42]).after.getReg 1, (at100 [1, 32769, 42]).after.pc) =
    (42, 103) := by decide

theorem test_E4_set : (((at100 [1, 32769, 32770]).setReg 2 7).after.getReg 1) = 7 := by decide

theorem test_E5_push : (((at100 [2, 32770]).setReg 2 7).after.stack) = [7] := by decide

theorem test_E6_pop :
    ({ at100 [3, 32768] with stack := [2, 1] }.after.getReg 0,
      { at100 [3, 32768] with stack := [2, 1] }.after.stack) = (2, [1]) := by decide

theorem test_P6a_pop : (at100 [3, 32768]).after = (at100 [3, 32768]).raise .stackUnderflow := by decide

theorem test_E7_eq : (((at100 [4, 32768, 32769, 9]).setReg 1 9).after.getReg 0) = 1 := by decide

theorem test_E8_gt : (((at100 [5, 32768, 32769, 9]).setReg 1 9).after.getReg 0) = 0 := by decide

/-- T20: unsigned. -/
theorem test_T20_gt : ((at100 [5, 32773, 32767, 0]).after.getReg 5) = 1 := by decide

theorem test_E10_jmp : (((at100 [6, 32771]).setReg 3 32767).after.pc) = 32767 := by decide

theorem test_E11_E12_jt :
    (((at100 [7, 32768, 500]).setReg 0 3).after.pc, (at100 [7, 32768, 500]).after.pc) =
    (500, 103) := by decide

/-- T9, T10: an invalid target matters only when the jump is taken. -/
theorem test_T9_T10_jt :
    ((at100 [7, 0, 40000]).after.run, (at100 [7, 1, 40000]).after.run) =
    (.running, .faulted (.invalidOperand 40000)) := by decide

theorem test_E13_E14_jf :
    ((at100 [8, 32768, 500]).after.pc, ((at100 [8, 32768, 500]).setReg 0 3).after.pc) =
    (500, 103) := by decide

theorem test_E15_add : (((at100 [9, 32768, 32768, 1]).setReg 0 32767).after.getReg 0) = 0 := by decide

/-- T28: both sources are the destination. -/
theorem test_T28_add : (((at100 [9, 32769, 32769, 32769]).setReg 1 32767).after.getReg 1) = 32766 := by
  decide

theorem test_E16_mult : ((at100 [10, 32768, 181, 182]).after.getReg 0) = 174 := by decide

theorem test_T19_mult : ((at100 [10, 32768, 32767, 32767]).after.getReg 0) = 1 := by decide

theorem test_E17_mod : ((at100 [11, 32768, 32767, 1000]).after.getReg 0) = 767 := by decide

theorem test_S7_T41_mod :
    ((at100 [11, 32768, 5, 0]).after.run, (at100 [11, 7, 5, 0]).after.run) =
    (.faulted .divisionByZero, .faulted (.invalidDestination 7)) := by decide

/-- T21. -/
theorem test_T21_and : ((at100 [12, 32768, 32527, 4080]).after.getReg 0) = 3840 := by decide

theorem test_T21_or : ((at100 [13, 32769, 32527, 4080]).after.getReg 1) = 32767 := by decide

theorem test_T21_not : ((at100 [14, 32772, 10922]).after.getReg 4) = 21845 := by decide

theorem test_E21_rmem : ((at100 [15, 32768, 100]).after.getReg 0) = 15 := by decide

theorem test_E22_rmem : (at100 [15, 32768, 101]).after =
    (at100 [15, 32768, 101]).raise (.valueOutOfRange 101 32768) := by decide

theorem test_E23_wmem : (((at100 [16, 200, 32769]).setReg 1 5).after.memRead 200) = 5 := by decide

/-- T16 moved to 100: a `wmem` over its own opcode word; then a 0 written removes the cell's entry. -/
theorem test_T16_wmem :
    ((at100 [16, 100, 21]).after.memRead 100, (at100 [16, 100, 0]).after.mem) =
    (21, [(101, 100)]) := by decide

theorem test_E24_call :
    ({ at100 [17, 500] with stack := [9] }.after.stack, { at100 [17, 500] with stack := [9] }.after.pc) =
    ([102, 9], 500) := by decide

theorem test_E25_ret :
    ({ at100 [18] with stack := [102, 9] }.after.stack, { at100 [18] with stack := [102, 9] }.after.pc) =
    ([9], 102) := by decide

theorem test_E26_ret : ((at100 [18]).after.run, (at100 [18]).after.pc) = (.halted, 101) := by decide

theorem test_E27_out : (((at100 [19, 32768]).setReg 0 10).after.output) = [10] := by decide

theorem test_out_failing_stream : { at100 [19, 65] with outputRoom := some 0 }.after =
    { at100 [19, 65] with outputRoom := some 0 }.raise .environmentFailure := by decide

theorem test_E28_E29_in :
    ({ at100 [20, 32769] with inbuf := [105, 10] }.after.inbuf,
      { at100 [20, 32769] with input := [⟨88, [10]⟩] }.after.getReg 1,
      { at100 [20, 32769] with input := [⟨88, [10]⟩] }.after.inbuf) = ([10], 88, [10]) := by decide

theorem test_E30_in : (at100 [20, 32769]).after = at100 [20, 32769] ∧
    (at100 [20, 32769]).waiting = true := by decide

/-! ### The top of memory, faults of the fetch, the loader, the interfaces -/

/-- The words ending at address 32767, `pc` at the first of them. -/
def atTop (ws : List Word) : State :=
  { State.reset with
    mem := Memory.ofWords (32768 - ws.length) ws, pc := BitVec.ofNat 15 (32768 - ws.length) }

/-- T1, T13: falling through to 32768. -/
theorem test_T1_T13_top :
    (atTop [21]).after.run = .faulted (.addressOutOfRange 32768) ∧
    (atTop [19, 65]).after.run = .faulted (.addressOutOfRange 32768) ∧
    (atTop [19, 65]).after.output = [] := by decide

/-- T3, T4, T7: `call` faults there, `jmp` and `ret` are legal. -/
theorem test_T3_T4_T7_top :
    (atTop [17, 5]).after.run = .faulted (.addressOutOfRange 32768) ∧
    (atTop [6, 3]).after.pc = 3 ∧ (atTop [18]).after.run = .halted ∧ (atTop [18]).after.pc = 0 := by
  decide

/-- T5, T6, T47: an operand word beyond the top; legality of the opcode comes first. -/
theorem test_T5_T6_T47_top :
    (atTop [1, 32768]).after.run = .faulted (.addressOutOfRange 32768) ∧
    (atTop [2]).after.run = .faulted (.addressOutOfRange 32768) ∧
    (atTop [22]).after.run = .faulted (.illegalOpcode 22) := by decide

/-- L1, L2, L3, L7. -/
theorem test_loader :
    load [] = .ok [] ∧ load [0] = .error (.truncatedImage 1) ∧
    load [19, 0, 65] = .error (.truncatedImage 3) ∧
    load [0, 128, 255, 255] = .ok [(0, 32768), (1, 65535)] := ⟨rfl, rfl, rfl, rfl⟩

/-- L5, L6: 65538 and 65537 bytes. -/
theorem test_loader_too_large :
    load (List.replicate 65538 0) = .error (.imageTooLarge 65538) ∧
    load (List.replicate 65537 0) = .error (.truncatedImage 65537) := by
  unfold load
  rw [List.length_replicate, List.length_replicate]
  exact ⟨rfl, rfl⟩

theorem test_status_codes :
    State.reset.statusCode = 0 ∧ (State.reset.raise .environmentFailure).statusCode = 11 ∧
    (State.reset.raise (.truncatedImage 1)).statusCode = 1 := by decide

/-- 60_exceptions R141: what `trace_steps` and `trace_calls` report of a `call`. -/
theorem test_report :
    { at100 [17, 500] with cfg := { stackDepth := none, trace := ⟨true, true, true⟩ } }.report =
      [.step "call" [500] 100 [], .callTo 500] ∧ (at100 [17, 500]).report = [] := by decide

/-- 60_exceptions R141, log 11: an `in` that waits is reported, with its raw operand word. -/
theorem test_report_waiting :
    { at100 [20, 32768] with cfg := { stackDepth := none, trace := ⟨true, false, false⟩ } }.report =
      [.step "in" [32768] 100 []] ∧ (at100 [20, 32768]).waiting = true := by decide

/-! ### Witnesses: states and operands that meet the hypotheses of the statements -/

/-- The reset state with `pc` at an address. -/
def atPc (n : Nat) : State := { State.reset with pc := BitVec.ofNat 15 n }

theorem witness_DecodeOfEncode :
    (Instr.add (.reg 7) (.lit 32767) (.invalid 32776)).wf = true := by decide

theorem witness_EncodeOfDecode : decode [1, 0x8007, 0x8008, 5] =
    .ok (.set (.reg 7) (.invalid 0x8008), [5]) := rfl

theorem witness_OperandCountsAreTheTable :
    nargsTable[(4 : Word).toNat]? = some 3 ∧ 3 ≤ ([0, 0, 0] : List Word).length ∧
    ([0, 0] : List Word).length < 3 ∧ nargsTable[(21 : Word).toNat]? = some 0 := by decide

/-- The classes meet at 32767, 32768, 32775 and 32776; each word falls under one clause only. -/
theorem witness_OperandWordClasses :
    classify 32767 = .lit 32767 ∧ classify 32768 = .reg 0 ∧ classify 32775 = .reg 7 ∧
    classify 32776 = .invalid 32776 ∧ classify 65535 = .invalid 65535 := by decide

theorem witness_ResolveOfWord :
    (32767 : Word).toNat < 32768 ∧ (32768 : Word).toNat = 32768 + (0 : RegIx).val ∧
    (32775 : Word).toNat = 32768 + (7 : RegIx).val ∧ 32775 < (32776 : Word).toNat := by decide

theorem witness_DestinationOfWord :
    (32768 : Word).toNat = 32768 + (0 : RegIx).val ∧ (32775 : Word).toNat = 32768 + (7 : RegIx).val ∧
    ((32767 : Word).toNat < 32768 ∨ 32775 < (32767 : Word).toNat) ∧
    ((32776 : Word).toNat < 32768 ∨ 32775 < (32776 : Word).toNat) := by decide

theorem witness_StepRunsDecodedInstruction :
    (atTop [1, 0x8000, 5]).run = .running ∧ (Instr.set (.reg 0) (.lit 5)).wf = true ∧
    (atTop [1, 0x8000, 5]).pc.toNat + (Instr.set (.reg 0) (.lit 5)).operands.length ≤ 32767 ∧
    ∀ (k : Nat) (h : k < (encode (.set (.reg 0) (.lit 5))).length),
      (atTop [1, 0x8000, 5]).mem.read ((atTop [1, 0x8000, 5]).pc.toNat + k) =
        (encode (.set (.reg 0) (.lit 5)))[k] := by decide

theorem witness_IllegalOpcodeExactly :
    (at100 [22]).run = .running ∧ 22 ≤ ((at100 [22]).mem.read (at100 [22]).pc.toNat).toNat ∧
    step (at100 [22]) = .next ((at100 [22]).raise (.illegalOpcode 22)) := ⟨rfl, by decide, rfl⟩

theorem witness_OperandBeyondTopFaults :
    (atTop [2]).run = .running ∧
    nargsTable[((atTop [2]).mem.read (atTop [2]).pc.toNat).toNat]? = some 1 ∧
    32767 < (atTop [2]).pc.toNat + 1 := by decide

theorem witness_TerminalStatesStay : State.reset.halt.run ≠ .running := by decide

theorem witness_PlacedInstructionRuns :
    (atPc 32764).mem.wf = true ∧ decodeTableWord 16 1 = some (.set (.lit 0) (.lit 0)) ∧
    (atPc 32764).pc.toNat + 3 ≤ 32767 := by decide

theorem witness_NoopRule : (atPc 32766).pc.toNat + 1 ≤ 32767 ∧ (atPc 32767).pc.toNat = 32767 := by decide

/-- `SetRule`, `NotRule`: each clause of `UnaryRule`. -/
theorem witness_UnaryRule :
    NotRegister (.lit 32767) ∧ NotRegister (.invalid 32776) ∧
    Denotes (atPc 32765) (.reg 7) 0 ∧ 32767 < (atPc 32765).pc.toNat + 3 ∧
    Denotes (atPc 32764) (.lit 32767) 32767 ∧ (atPc 32764).pc.toNat + 3 ≤ 32767 := by decide

/-- `EqGtRules`, `AddRule`, `MultRule`, `AndOrRules`: each clause of `BinaryRule`. -/
theorem witness_BinaryRule :
    NotRegister (.lit 0) ∧ NotRegister (.invalid 65535) ∧
    Denotes (atPc 32764) (.reg 0) 0 ∧ Denotes (atPc 32764) (.lit 1) 1 ∧
    32767 < (atPc 32764).pc.toNat + 4 ∧
    Denotes (atPc 32763) (.reg 0) 0 ∧ Denotes (atPc 32763) (.lit 1) 1 ∧
    (atPc 32763).pc.toNat + 4 ≤ 32767 := by decide

/-- `PushRule`, `CallRule`: each clause; a full stack of depth 1, one with room, an unbounded one. -/
theorem witness_PushCallRules :
    Denotes (atPc 32766) (.lit 5) 5 ∧ 32767 < (atPc 32766).pc.toNat + 2 ∧
    Denotes (atPc 32765) (.lit 5) 5 ∧ (atPc 32765).pc.toNat + 2 ≤ 32767 ∧ StackHasRoom (atPc 32765) ∧
    { atPc 0 with stack := [9], cfg := { Config.default with stackDepth := some 1 } }.cfg.stackDepth =
      some ([9] : List Value).length ∧
    StackHasRoom { atPc 0 with cfg := { Config.default with stackDepth := some 1 } } := by
  refine ⟨by decide, by decide, by decide, by decide, ?_, rfl, ?_⟩
  · intro depth h; cases h
  · intro depth h; cases h; decide

theorem witness_PopRule :
    NotRegister (.lit 5) ∧ (atPc 0).stack = [] ∧
    { atPc 32766 with stack := [7, 9] }.stack = 7 :: [9] ∧ 32767 < (atPc 32766).pc.toNat + 2 ∧
    (atPc 32765).pc.toNat + 2 ≤ 32767 := by decide

theorem witness_JmpRule : Denotes ((atPc 32766).setReg 1 32767) (.reg 1) 32767 := by decide

/-- `JtJfRules`: each clause of `BranchRule`, for both tests. -/
theorem witness_BranchRule :
    Denotes (atPc 32765) (.lit 0) 0 ∧ Denotes (atPc 32765) (.lit 1) 1 ∧ (1 : Value).toNat ≠ 0 ∧
    (0 : Value).toNat = 0 ∧ Denotes (atPc 32765) (.lit 500) 500 ∧ 32767 < (atPc 32765).pc.toNat + 3 ∧
    Denotes (atPc 32764) (.lit 0) 0 ∧ Denotes (atPc 32764) (.lit 1) 1 ∧
    (atPc 32764).pc.toNat + 3 ≤ 32767 := by decide

theorem witness_ModRule :
    NotRegister (.lit 7) ∧ Denotes (atPc 32764) (.lit 5) 5 ∧ Denotes (atPc 32764) (.reg 0) 0 ∧
    Denotes (atPc 32764) (.lit 3) 3 ∧ (3 : Value) ≠ 0 ∧ 32767 < (atPc 32764).pc.toNat + 4 ∧
    Denotes (atPc 32763) (.lit 5) 5 ∧ Denotes (atPc 32763) (.lit 3) 3 ∧
    (atPc 32763).pc.toNat + 4 ≤ 32767 := by decide

/-- The cells meet at 32767 and 32768. -/
theorem witness_RmemRule :
    Denotes (at100 [32768, 32767]) (.lit 100) 100 ∧
    32767 < ((at100 [32768, 32767]).mem.read (100 : Addr).toNat).toNat ∧
    Denotes (at100 [32768, 32767]) (.lit 101) 101 ∧
    ((at100 [32768, 32767]).mem.read (101 : Addr).toNat).toNat ≤ 32767 ∧
    (at100 [32768, 32767]).pc.toNat + 3 ≤ 32767 ∧
    ((atPc 32765).mem.read (0 : Addr).toNat).toNat ≤ 32767 ∧ Denotes (atPc 32765) (.lit 0) 0 ∧
    32767 < (atPc 32765).pc.toNat + 3 ∧ (atPc 32764).pc.toNat + 3 ≤ 32767 := by decide

theorem witness_WmemRule :
    (at100 [16, 100, 0]).mem.wf = true ∧ Denotes (at100 [16, 100, 0]) (.lit 100) 100 ∧
    Denotes (at100 [16, 100, 0]) (.reg 0) 0 ∧ (at100 [16, 100, 0]).pc.toNat + 3 ≤ 32767 ∧
    (atPc 32765).mem.wf = true ∧ Denotes (atPc 32765) (.lit 32767) 32767 ∧
    32767 < (atPc 32765).pc.toNat + 3 ∧ (atPc 32764).pc.toNat + 3 ≤ 32767 := by decide

theorem witness_RetRule :
    { atPc 32767 with stack := [5] }.stack = 5 :: [] ∧ (atPc 32767).stack = [] := by decide

theorem witness_OutRule :
    Denotes (atPc 32766) (.lit 65) 65 ∧ 32767 < (atPc 32766).pc.toNat + 2 ∧
    Denotes (atPc 32765) (.lit 65) 65 ∧ (atPc 32765).pc.toNat + 2 ≤ 32767 ∧
    (atPc 32765).outputRoom ≠ some 0 ∧ { atPc 32765 with outputRoom := some 0 }.outputRoom = some 0 := by
  decide

theorem witness_InRule :
    NotRegister (.lit 0) ∧ 32767 < (atPc 32766).pc.toNat + 2 ∧ (atPc 32765).pc.toNat + 2 ≤ 32767 ∧
    { atPc 32765 with inbuf := [105, 10] }.inbuf = 105 :: [10] ∧
    { atPc 32765 with input := [⟨88, [10]⟩] }.inbuf = [] ∧
    { atPc 32765 with input := [⟨88, [10]⟩] }.input = ⟨88, [10]⟩ :: [] ∧
    (atPc 32765).inbuf = [] ∧ (atPc 32765).input = [] ∧ (atPc 32765).inputEnd = .silent ∧
    { atPc 32765 with inputEnd := .fails }.inputEnd = .fails := by decide

/-- `OnlyDestinationRegisterChanges`, `OnlyValueOperandsAreRead`: a `set r0 5` and register 1. -/
theorem witness_RegisterFrames :
    exec (.set (.reg 0) (.lit 5)) (atPc 0) = .next (((atPc 0).setReg 0 5).setPc 3) ∧
    destinationOperand (.set (.reg 0) (.lit 5)) ≠ some (.reg 1) ∧
    Operand.reg 1 ∉ valueOperands (.set (.reg 0) (.lit 5)) := ⟨rfl, by decide, by decide⟩

/-- `OnlyWmemChangesMemory`, and the frames over all instructions: a `wmem 200 5`. -/
theorem witness_MemoryFrame :
    exec (.wmem (.lit 200) (.lit 5)) (atPc 0) = .next (((atPc 0).memWrite 200 5).setPc 3) ∧
    Denotes (atPc 0) (.lit 200) 200 ∧ 201 ≠ (200 : Addr).toNat ∧
    exec .noop (atPc 0) = .next ((atPc 0).setPc 1) ∧ ∀ a b, Instr.noop ≠ .wmem a b :=
  ⟨rfl, by decide, by decide, rfl, fun _ _ h => nomatch h⟩

/-- `OnlyFourInstructionsTouchStack`: a `push`, a `pop`, and an instruction that touches nothing. -/
theorem witness_StackFrame :
    exec (.push (.lit 5)) (atPc 0) = .next (((atPc 0).pushValue 5).setPc 2) ∧
    exec (.pop (.reg 0)) { atPc 0 with stack := [7] } = .next (((atPc 0).setReg 0 7).setPc 2) ∧
    exec .noop (atPc 0) = .next ((atPc 0).setPc 1) := ⟨rfl, rfl, rfl⟩

/-- `StreamsAndParametersFrame`: an `out`, an `in`, and an instruction that is neither. -/
theorem witness_StreamFrame :
    exec (.out (.lit 65)) (atPc 0) = .next ({ atPc 0 with output := [65] }.setPc 2) ∧
    exec (.in_ (.reg 0)) { atPc 0 with inbuf := [7] } = .next (((atPc 0).setReg 0 7).setPc 2) ∧
    (∀ a, Instr.noop ≠ .in_ a) ∧ (∀ a, Instr.noop ≠ .out a) :=
  ⟨rfl, rfl, nofun, nofun⟩

theorem witness_HaltedOnlyByHaltOrEmptyRet :
    (at100 [18]).run = .running ∧ step (at100 [18]) = .next (at100 [18]).halt ∧
    (at100 [18]).halt.run = .halted ∧ step (at100 [0]) = .next (at100 [0]).halt := ⟨rfl, rfl, rfl, rfl⟩

theorem witness_FaultsArePrecise :
    (at100 [3, 32768]).run = .running ∧
    step (at100 [3, 32768]) = .next ((at100 [3, 32768]).raise .stackUnderflow) ∧
    ((at100 [3, 32768]).raise .stackUnderflow).run = .faulted .stackUnderflow := ⟨rfl, rfl, rfl⟩

/-- `FaultMatrix`, `StackUnderflowOnlyByPop`: a `pop` of the empty stack. -/
theorem witness_FaultMatrix :
    (atPc 0).run = .running ∧
    exec (.pop (.reg 0)) (atPc 0) = .next ((atPc 0).raise .stackUnderflow) ∧
    ((atPc 0).raise .stackUnderflow).run = .faulted .stackUnderflow ∧ (atPc 0).stack = [] :=
  ⟨rfl, rfl, rfl, rfl⟩

theorem witness_InvalidDestinationExactly :
    (atPc 0).run = .running ∧
    exec (.pop (.lit 5)) (atPc 0) = .next ((atPc 0).raise (.invalidDestination 5)) ∧
    destinationOperand (.pop (.lit 5)) = some (.lit 5) ∧ NotRegister (.lit 5) ∧
    (5 : Word) = Operand.toWord (.lit 5) := ⟨rfl, rfl, rfl, by decide, by decide⟩

theorem witness_DivisionByZeroOnlyByMod :
    (atPc 0).run = .running ∧
    exec (.mod (.reg 0) (.lit 5) (.lit 0)) (atPc 0) = .next ((atPc 0).raise .divisionByZero) ∧
    Denotes (atPc 0) (.lit 5) 5 ∧ (atPc 0).regs[(3 : RegIx)] = 0 := ⟨rfl, rfl, by decide, by decide⟩

theorem witness_UnboundedStackNeverOverflows :
    (at100 [2, 5]).run = .running ∧ (at100 [2, 5]).cfg.stackDepth = none ∧
    step (at100 [2, 5]) = .next (((at100 [2, 5]).pushValue 5).setPc 102) := ⟨rfl, rfl, rfl⟩

theorem witness_TraceDoesNotAffectExecution :
    step (at100 [21]) = .next ((at100 [21]).setPc 101) := rfl

theorem witness_MemoryPrimitives :
    (at100 [7, 8]).mem.wf = true ∧ (32767 : Addr) ≠ 0 := by decide

theorem witness_StepKeepsInvariant :
    (at100 [16, 100, 0]).Inv ∧
    step (at100 [16, 100, 0]) = .next (((at100 [16, 100, 0]).memWrite 100 0).setPc 103) :=
  ⟨⟨by decide, fun depth h => by cases h⟩, rfl⟩

theorem witness_NoStepCreatesWideCell :
    (at100 [21, 32768]).mem.wf = true ∧
    step (at100 [21, 32768]) = .next ((at100 [21, 32768]).setPc 101) ∧
    32767 < (((at100 [21, 32768]).setPc 101).mem.read 101).toNat := ⟨by decide, rfl, by decide⟩

theorem witness_CallThenRetReturns :
    (atPc 3).run = .running ∧
    exec (.call (.lit 11)) (atPc 3) = .next (((atPc 3).pushValue 5).setPc 11) ∧
    (((atPc 3).pushValue 5).setPc 11).run = .running ∧
    { atPc 21 with stack := [5] }.stack = (((atPc 3).pushValue 5).setPc 11).stack :=
  ⟨rfl, rfl, rfl, rfl⟩

theorem witness_PushThenPopRoundTrip :
    (atPc 0).run = .running ∧ Denotes (atPc 0) (.lit 4321) 4321 ∧
    exec (.push (.lit 4321)) (atPc 0) = .next (((atPc 0).pushValue 4321).setPc 2) ∧
    (((atPc 0).pushValue 4321).setPc 2).run = .running ∧
    { atPc 32765 with stack := [4321] }.stack = (((atPc 0).pushValue 4321).setPc 2).stack ∧
    { atPc 32765 with stack := [4321] }.pc.toNat + 2 ≤ 32767 :=
  ⟨rfl, by decide, rfl, rfl, rfl, by decide⟩

theorem witness_NotTwiceGivesBack :
    Denotes (atPc 32761) (.lit 1234) 1234 ∧ (atPc 32761).pc.toNat + 6 ≤ 32767 := by decide

theorem witness_InputIsDeliveredInOrder :
    (atPc 32765).pc.toNat + 2 ≤ 32767 ∧
    { atPc 32765 with inbuf := [72], input := [⟨88, [10]⟩] }.pendingInput = 72 :: [88, 10] ∧
    { atPc 32765 with input := [⟨88, [10]⟩] }.pendingInput = 88 :: [10] := by decide

theorem witness_WaitingEndsWithALine :
    (atTop [20, 32768, 21]).waiting = true ∧
    (atTop [20, 32768, 21]).fetch = .ok (.in_ (.reg 0)) := by decide

theorem witness_LoaderRule :
    ([0] : List Byte).length % 2 = 1 ∧ (List.replicate 65538 (0 : Byte)).length % 2 = 0 ∧
    32768 < (List.replicate 65538 (0 : Byte)).length / 2 ∧
    (List.replicate 65536 (0 : Byte)).length % 2 = 0 ∧
    (List.replicate 65536 (0 : Byte)).length / 2 ≤ 32768 ∧
    ([9, 1] : List Byte)[2 * 0]? = some 9 ∧ ([9, 1] : List Byte)[2 * 0 + 1]? = some 1 := by
  rw [List.length_replicate, List.length_replicate]
  decide

theorem witness_ResetSequence : load [0, 128] = .ok [(0, 32768)] := rfl

theorem witness_LoaderErrorTakesNoStep : load [19, 0, 65] = .error (.truncatedImage 3) := rfl

end Sys2Proof.Tests
end

/-! ## The frame of every instruction (10_state)

What an instruction can change, said once as ten shapes of change, and the frame of each field of the
state read off the shapes. Then the statements of 10_state, each from its frame lemma. -/

namespace Sys2Proof.Machine

open Sys2Proof.Claims

/-! ### The shapes of change -/

/-- The ways in which an instruction that raises nothing leads from `s` to another state. It forgets what is
computed and keeps which fields change, and which instructions may change them. -/
inductive Change (s : State) (i : Instr) : State → Prop where
  /-- The destination register and `pc` are written. -/
  | register (d : RegIx) (v : Value) (p : Addr) (hi : destinationOperand i = some (.reg d)) :
      Change s i ((s.setReg d v).setPc p)
  /-- Only `pc` is written: a jump, taken or not, or `noop`. -/
  | pcOnly (p : Addr) : Change s i (s.setPc p)
  /-- The run ends. -/
  | halted (hi : i = .halt ∨ i = .ret ∧ s.stack = []) : Change s i s.halt
  /-- One entry is pushed. -/
  | pushed (v : Value) (p : Addr) (hi : (∃ a, i = .push a) ∨ ∃ a, i = .call a)
      (hroom : s.stackFull = false) : Change s i ((s.pushValue v).setPc p)
  /-- One entry is popped into a register. -/
  | popped (d : RegIx) (v : Value) (rest : List Value) (p : Addr) (hi : i = .pop (.reg d))
      (hs : s.stack = v :: rest) : Change s i (({ s with stack := rest }.setReg d v).setPc p)
  /-- One entry is popped into `pc`. -/
  | returned (p : Addr) (rest : List Value) (hi : i = .ret) (hs : s.stack = p :: rest) :
      Change s i ({ s with stack := rest }.setPc p)
  /-- One cell is written with a 15-bit value. -/
  | stored (a b : Operand) (addr : Addr) (v : Value) (p : Addr) (hi : i = .wmem a b)
      (ha : s.resolve a = .ok addr) : Change s i ((s.memWrite addr v).setPc p)
  /-- One character is emitted. -/
  | emitted (a : Operand) (v : Value) (room : Option Nat) (p : Addr) (hi : i = .out a) :
      Change s i ({ s with output := s.output ++ [v], outputRoom := room }.setPc p)
  /-- An `in` waits for a line. -/
  | waits (a : Operand) (hi : i = .in_ a) : Change s i s
  /-- One character is taken into a register. -/
  | received (d : RegIx) (ch : Value) (buffer : List Value) (lines : List Line) (p : Addr)
      (hi : i = .in_ (.reg d)) (hc : s.nextChar = .char ch buffer lines) :
      Change s i (({ s with inbuf := buffer, input := lines }.setReg d ch).setPc p)

theorem Wrote.change {s t : State} {i : Instr} {n : Nat} {a : Operand} {v : Value}
    (h : Wrote s t n a v) (hi : destinationOperand i = some a) : Change s i t := by
  obtain ⟨d, p, rfl, -, rfl⟩ := h
  exact .register d v p hi

/-- The effect of every instruction has one of the shapes. -/
theorem Effect.change {s t : State} {i : Instr} (h : Effect s t i) : Change s i t := by
  cases i with
  | halt => obtain rfl : t = s.halt := h; exact .halted (.inl rfl)
  | set a b | not a b => obtain ⟨_, -, hw⟩ := h; exact hw.change rfl
  | rmem a b => obtain ⟨_, -, -, hw⟩ := h; exact hw.change rfl
  | eq a b c | gt a b c | add a b c | mult a b c | and a b c | or a b c =>
    obtain ⟨_, _, -, -, hw⟩ := h; exact hw.change rfl
  | mod a b c => obtain ⟨_, _, -, -, -, hw⟩ := h; exact hw.change rfl
  | jmp a => obtain ⟨p, -, rfl⟩ := h; exact .pcOnly p
  | jt a b | jf a b => obtain ⟨_, p, -, rfl, -⟩ := h; exact .pcOnly p
  | noop => obtain ⟨p, -, rfl⟩ := h; exact .pcOnly p
  | push a => obtain ⟨v, p, -, -, hroom, rfl⟩ := h; exact .pushed v p (.inl ⟨a, rfl⟩) hroom
  | call a => obtain ⟨p, npc, -, -, hroom, rfl⟩ := h; exact .pushed npc p (.inr ⟨a, rfl⟩) hroom
  | pop a => obtain ⟨d, v, rest, p, rfl, hs, -, rfl⟩ := h; exact .popped d v rest p rfl hs
  | ret =>
    rcases h with ⟨hs, rfl⟩ | ⟨p, rest, hs, rfl⟩
    · exact .halted (.inr ⟨rfl, hs⟩)
    · exact .returned p rest rfl hs
  | wmem a b => obtain ⟨addr, v, p, ha, -, -, rfl⟩ := h; exact .stored a b addr v p rfl ha
  | out a => obtain ⟨v, p, -, -, -, rfl⟩ := h; exact .emitted a v _ p rfl
  | in_ a =>
    obtain ⟨d, p, rfl, -, ⟨-, rfl⟩ | ⟨ch, buffer, lines, hc, rfl⟩⟩ := h
    · exact .waits _ rfl
    · exact .received d ch buffer lines p rfl hc

/-- An instruction enters a fault or makes one of the changes. -/
theorem exec_change {i : Instr} {s t : State} (h : exec i s = .next t) :
    (∃ k, t = s.raise k) ∨ Change s i t := by
  rcases exec_cases h with ⟨k, -, ht⟩ | he
  · exact .inl ⟨k, ht⟩
  · exact .inr he.change

/-- A step answers the same state, enters a fault, or makes one of the changes of the instruction fetched. -/
theorem step_change {s t : State} (h : step s = .next t) :
    t = s ∨ (∃ k, t = s.raise k) ∨ ∃ i, s.fetch = .ok i ∧ Change s i t := by
  rcases step_cases h with ⟨-, ht⟩ | ⟨-, k, ht, -⟩ | ⟨-, i, hf, he⟩
  · exact .inl ht
  · exact .inr (.inl ⟨k, ht⟩)
  · exact .inr (.inr ⟨i, hf, he.change⟩)

/-! ### The frame of each field -/

section Frame

variable {s t : State} {i : Instr}

/-- 10_state R12: a register that is not the destination keeps its value. -/
theorem Change.regs_other (h : Change s i t) {r : RegIx}
    (hr : destinationOperand i ≠ some (.reg r)) : t.regs[r] = s.regs[r] := by
  cases h with
  | register d v p hi =>
    have hne : r ≠ d := by rintro rfl; exact hr hi
    exact State.getReg_setReg_other s d r v hne
  | popped d v rest p hi hs =>
    have hne : r ≠ d := by rintro rfl; exact hr (hi ▸ rfl)
    exact State.getReg_setReg_other { s with stack := rest } d r v hne
  | received d ch buffer lines p hi hc =>
    have hne : r ≠ d := by rintro rfl; exact hr (hi ▸ rfl)
    exact State.getReg_setReg_other { s with inbuf := buffer, input := lines } d r ch hne
  | _ => rfl

/-- 20_memory R33: memory is kept, or a `wmem` wrote one cell. -/
theorem Change.mem (h : Change s i t) :
    t.mem = s.mem ∨ ∃ a b addr v, i = .wmem a b ∧ s.resolve a = .ok addr ∧
      t.mem = s.mem.write addr.toNat (zext16 v) := by
  cases h with
  | stored a b addr v p hi ha => exact .inr ⟨a, b, addr, v, hi, ha, rfl⟩
  | _ => exact .inl rfl

/-- 10_state R16: the stack is kept, or grows by one entry for which there was room, or shrinks by one. -/
theorem Change.stack (h : Change s i t) :
    t.stack = s.stack ∨
    (((∃ a, i = .push a) ∨ ∃ a, i = .call a) ∧ s.stackFull = false ∧ ∃ v, t.stack = v :: s.stack) ∨
    (((∃ a, i = .pop a) ∨ i = .ret) ∧ ∃ v, s.stack = v :: t.stack) := by
  cases h with
  | pushed v p hi hroom => exact .inr (.inl ⟨hi, hroom, v, rfl⟩)
  | popped d v rest p hi hs => exact .inr (.inr ⟨.inl ⟨_, hi⟩, v, hs⟩)
  | returned p rest hi hs => exact .inr (.inr ⟨.inr hi, p, hs⟩)
  | _ => exact .inl rfl

/-- 10_state R19: only `in` takes input. -/
theorem Change.input_of_ne_in (h : Change s i t) (hi : ∀ a, i ≠ .in_ a) :
    t.inbuf = s.inbuf ∧ t.input = s.input := by
  cases h with
  | received d ch buffer lines p hin hc => exact absurd hin (hi _)
  | _ => exact ⟨rfl, rfl⟩

/-- 10_state R21: the output is kept, or an `out` appended one character. -/
theorem Change.output (h : Change s i t) :
    (t.output = s.output ∧ t.outputRoom = s.outputRoom) ∨
    ∃ a v, i = .out a ∧ t.output = s.output ++ [v] := by
  cases h with
  | emitted a v room p hi => exact .inr ⟨a, v, hi, rfl⟩
  | _ => exact .inl ⟨rfl, rfl⟩

theorem Change.inputEnd (h : Change s i t) : t.inputEnd = s.inputEnd := by
  cases h <;> rfl

/-- 10_state R23: the parameters are fixed at construction. -/
theorem Change.cfg (h : Change s i t) : t.cfg = s.cfg := by
  cases h <;> rfl

/-- 10_state R20: the run state is kept, except that `halt` and `ret` on an empty stack end the run. -/
theorem Change.run (h : Change s i t) :
    t.run = s.run ∨ (t.run = .halted ∧ (i = .halt ∨ i = .ret ∧ s.stack = [])) := by
  cases h with
  | halted hi => exact .inr ⟨rfl, hi⟩
  | _ => exact .inl rfl

end Frame

/-! ### The frame of a step -/

/-- A step keeps memory, or writes a 15-bit value to one cell. -/
theorem step_mem {s t : State} (h : step s = .next t) :
    t.mem = s.mem ∨ ∃ (addr : Addr) (v : Value), t.mem = s.mem.write addr.toNat (zext16 v) := by
  rcases step_change h with rfl | ⟨k, rfl⟩ | ⟨i, -, hc⟩
  · exact .inl rfl
  · exact .inl rfl
  · rcases hc.mem with hm | ⟨_, _, addr, v, -, -, hm⟩
    · exact .inl hm
    · exact .inr ⟨addr, v, hm⟩

/-- A step that leaves more entries on the stack pushed one, and there was room for it. -/
theorem step_stack_length {s t : State} (h : step s = .next t) :
    t.stack.length ≤ s.stack.length ∨
    (s.stackFull = false ∧ t.stack.length = s.stack.length + 1) := by
  rcases step_change h with rfl | ⟨k, rfl⟩ | ⟨i, -, hc⟩
  · exact .inl le_rfl
  · exact .inl le_rfl
  · rcases hc.stack with hs | ⟨-, hroom, v, hs⟩ | ⟨-, v, hs⟩
    · exact .inl (congrArg List.length hs).le
    · exact .inr ⟨hroom, by simp [hs]⟩
    · exact .inl (by simp [hs])

theorem step_cfg {s t : State} (h : step s = .next t) : t.cfg = s.cfg := by
  rcases step_change h with rfl | ⟨k, rfl⟩ | ⟨i, -, hc⟩
  · rfl
  · rfl
  · exact hc.cfg

/-- A stack that is not full is below every finite capacity. -/
theorem length_lt_of_not_stackFull {s : State} (h : s.stackFull = false) {depth : Nat}
    (hd : s.cfg.stackDepth = some depth) : s.stack.length < depth := by
  by_contra hge
  have hfull : s.stackFull = true := stackFull_eq_true_iff.2 ⟨depth, hd, Nat.not_lt.1 hge⟩
  rw [h] at hfull
  cases hfull

/-- 10_state R28 (d): a cell that a 15-bit value is written into holds at most 32767. -/
theorem read_write_zext16_le {m : Memory} (hm : m.wf = true) (a : Nat) (v : Value) :
    ((m.write a (zext16 v)).read a).toNat ≤ 32767 := by
  rw [Memory.read_write_same _ hm, toNat_zext16]
  have := v.isLt
  omega

/-! ### The fetch -/

/-- The opcode of an assembled instruction is the one that selected it (30_encoding R58). -/
theorem opcode_of_assemble {n : Nat} {a b c : Operand} {i : Instr} (h : assemble n a b c = some i) :
    i.opcode.toNat = n := by
  unfold assemble at h
  split at h <;> cases h <;> rfl

/-- The opcode of a decoded instruction is the first word. -/
theorem opcode_of_decode {op : Word} {ws rest : List Word} {i : Instr}
    (h : decode (op :: ws) = .ok (i, rest)) : i.opcode = op := by
  simp only [decode] at h
  split at h
  · cases h
  · split at h
    · cases h
    · split at h
      · cases h
      · rename_i j hj
        cases h
        exact BitVec.eq_of_toNat_eq (opcode_of_assemble hj)

/-- The opcode of the instruction fetched is the word at `pc`. -/
theorem opcode_of_fetch {s : State} {i : Instr} (h : s.fetch = .ok i) :
    i.opcode = s.mem.read s.pc.toNat := by
  unfold State.fetch at h
  split at h
  · cases h
  · split at h
    · cases h
    · split at h
      · rename_i j rest hd
        cases h
        exact opcode_of_decode hd
      · cases h

/-- 30_encoding R62 step 3: the fault of an operand word beyond the top of memory. -/
theorem fetch_of_beyondTop {s : State} {n : Nat} (hn : nargs? (s.memRead s.pc) = some n)
    (hgt : 32767 < s.pc.toNat + n) : s.fetch = .error (.addressOutOfRange (s.pc.toNat + n)) := by
  unfold State.fetch
  rw [hn]
  exact if_pos hgt

/-- The fetch raises two kinds of fault (30_encoding R62 steps 2 and 3). -/
theorem fetch_error_kind {s : State} {k : Fault} (h : s.fetch = .error k) :
    (∃ w, k = .illegalOpcode w) ∨ ∃ a, k = .addressOutOfRange a := by
  unfold State.fetch at h
  split at h
  · cases h; exact .inl ⟨_, rfl⟩
  · split at h
    · cases h; exact .inr ⟨_, rfl⟩
    · split at h
      · cases h
      · cases h; exact .inl ⟨_, rfl⟩

/-! ### Stack overflow -/

/-- 60_exceptions R129: `StackOverflow` is raised on a full stack only; every other check raises another kind. -/
theorem stackFull_of_raises_stackOverflow {s : State} {i : Instr} (h : Raises s .stackOverflow i) :
    s.stackFull = true := by
  have hdst (o : Operand) : dst o ≠ .error .stackOverflow := by simp [dst_eq_error_iff]
  have hres (o : Operand) : s.resolve o ≠ .error .stackOverflow := by simp [resolve_eq_error_iff]
  have hnpc (n : Nat) : s.checkedNpc n ≠ .error .stackOverflow := by simp [checkedNpc_eq_error_iff]
  cases i with
  | push a | call a => simpa [Raises, hres, hnpc] using h
  | _ => simp [Raises, hdst, hres, hnpc] at h

/-! ### Delivery of a character -/

/-- 47_out_in R111: an `in` into a register takes the next character. -/
theorem exec_in_of_char {s : State} {d : RegIx} {ch : Value} {buffer : List Value} {lines : List Line}
    (hpc : s.pc.toNat + 2 ≤ 32767) (hc : s.nextChar = .char ch buffer lines) :
    exec (.in_ (.reg d)) s = .next (({ s with inbuf := buffer, input := lines }.setReg d ch).setPc
      (BitVec.ofNat 15 (s.pc.toNat + 1 + 1))) := by
  have hn := checkedNpc_of_le (s := s) (n := 1) (by omega)
  simp only [exec, execIn, dst_reg, ok_bind, hn, hc, pure_eq_ok, commit_ok]

/-! ### A register that is not read (10_state R12) -/

section Unread

variable {r : RegIx}

/-- Two results of pseudocode that differ at most in register `r`: the same fault, or completed states that
differ there. -/
inductive SameOff (r : RegIx) : Except Fault State → Except Fault State → Prop where
  | ok (t : State) (w : Value) : SameOff r (.ok t) (.ok (t.setReg r w))
  | error (k : Fault) : SameOff r (.error k) (.error k)

/-- A check that both sides pass alike. -/
theorem SameOff.bind {α : Type} {x y : Except Fault α} {f g : α → Except Fault State} (hxy : y = x)
    (h : ∀ a, SameOff r (f a) (g a)) : SameOff r (x >>= f) (y >>= g) := by
  subst hxy
  cases y with
  | ok a => exact h a
  | error k => exact .error k

/-- A part of the pseudocode that changes the state, then the rest. -/
theorem SameOff.andThen {x y : Except Fault State} {f g : State → Except Fault State}
    (hxy : SameOff r x y) (h : ∀ t w, SameOff r (f t) (g (t.setReg r w))) :
    SameOff r (x >>= f) (y >>= g) := by
  cases hxy with
  | ok t w => exact h t w
  | error k => exact .error k

/-- Both sides write register `d`, which may be `r`. -/
theorem SameOff.setReg (s : State) (v : Value) (d : RegIx) (x : Value) (p : Addr) :
    SameOff r (.ok ((s.setReg d x).setPc p)) (.ok (((s.setReg r v).setReg d x).setPc p)) := by
  by_cases hd : d = r
  · subst hd
    have he : ((s.setReg d v).setReg d x).setPc p = ((s.setReg d x).setPc p).setReg d x := by
      simp [State.setReg, State.setPc]
    rw [he]
    exact .ok _ x
  · have hne : r.val ≠ d.val := fun e => hd (Fin.ext e.symm)
    have he : ((s.setReg r v).setReg d x).setPc p = ((s.setReg d x).setPc p).setReg r v := by
      simp [State.setReg, State.setPc, Vector.set_comm _ _ hne]
    rw [he]
    exact .ok _ v

variable {s : State} {v : Value}

theorem resolve_setReg_of_ne {o : Operand} (ho : o ≠ .reg r) : (s.setReg r v).resolve o = s.resolve o := by
  cases o with
  | reg q =>
    have hne : q ≠ r := by rintro rfl; exact ho rfl
    exact congrArg Except.ok (State.getReg_setReg_other s r q v hne)
  | lit x => rfl
  | invalid w => rfl

theorem SameOff.unary {f : Value → Value} {a b : Operand} (hb : b ≠ .reg r) :
    SameOff r (s.unary f a b) ((s.setReg r v).unary f a b) :=
  .bind rfl fun d => .bind (resolve_setReg_of_ne hb) fun vb => .bind rfl fun p =>
    .setReg s v d (f vb) p

theorem SameOff.binary {f : Value → Value → Value} {a b c : Operand} (hb : b ≠ .reg r)
    (hc : c ≠ .reg r) : SameOff r (s.binary f a b c) ((s.setReg r v).binary f a b c) :=
  .bind rfl fun d => .bind (resolve_setReg_of_ne hb) fun vb => .bind (resolve_setReg_of_ne hc) fun vc =>
    .bind rfl fun p => .setReg s v d (f vb vc) p

theorem SameOff.jumpTo {a : Operand} (ha : a ≠ .reg r) :
    SameOff r (s.jumpTo a) ((s.setReg r v).jumpTo a) :=
  .bind (resolve_setReg_of_ne ha) fun p => .ok (s.setPc p) v

theorem SameOff.jumpIf {f : Value → Bool} {a b : Operand} (ha : a ≠ .reg r) (hb : b ≠ .reg r) :
    SameOff r (s.jumpIf f a b) ((s.setReg r v).jumpIf f a b) := by
  refine .bind (resolve_setReg_of_ne ha) fun va => ?_
  cases f va
  · exact .bind rfl fun p => .ok (s.setPc p) v
  · exact .jumpTo hb

theorem SameOff.checkedPush (x : Value) : SameOff r (s.checkedPush x) ((s.setReg r v).checkedPush x) := by
  have hfull : (s.setReg r v).stackFull = s.stackFull := rfl
  unfold State.checkedPush
  rw [hfull]
  cases s.stackFull
  · exact .ok (s.pushValue x) v
  · exact .error _

theorem SameOff.outChar (x : Value) : SameOff r (s.outChar x) ((s.setReg r v).outChar x) := by
  unfold State.outChar
  rw [State.setReg_outputRoom]
  split
  · exact .ok _ v
  · exact .error _
  · exact .ok _ v

/-- Committed, the two results are next states that differ at most in register `r`. -/
theorem SameOff.commit {x y : Except Fault State} {t : State} (h : SameOff r x y)
    (ht : s.commit x = .next t) : ∃ w, (s.setReg r v).commit y = .next (t.setReg r w) := by
  cases h with
  | ok u w => cases ht; exact ⟨w, rfl⟩
  | error k => cases ht; exact ⟨v, rfl⟩

/-- `pop` reads the stack and no register. -/
theorem exec_pop_setReg {a : Operand} {t : State} (h : exec (.pop a) s = .next t) :
    ∃ w, exec (.pop a) (s.setReg r v) = .next (t.setReg r w) := by
  refine SameOff.commit (.bind rfl fun d => ?_) h
  rw [State.setReg_stack]
  cases s.stack with
  | nil => exact .error _
  | cons x rest => exact .bind rfl fun p => .setReg { s with stack := rest } v d x p

/-- `ret` reads the stack and no register. -/
theorem exec_ret_setReg {t : State} (h : exec .ret s = .next t) :
    ∃ w, exec .ret (s.setReg r v) = .next (t.setReg r w) := by
  simp only [exec, execRet, State.setReg_stack] at h ⊢
  cases hs : s.stack with
  | nil => rw [hs] at h; cases h; exact ⟨v, rfl⟩
  | cons p rest => rw [hs] at h; cases h; exact ⟨v, rfl⟩

/-- `in` reads the line buffer and the host's lines, and no register. -/
theorem exec_in_setReg {a : Operand} {t : State} (h : exec (.in_ a) s = .next t) :
    ∃ w, exec (.in_ a) (s.setReg r v) = .next (t.setReg r w) := by
  have hnext : (s.setReg r v).nextChar = s.nextChar := rfl
  refine SameOff.commit (.bind rfl fun d => .bind rfl fun p => ?_) h
  rw [hnext]
  cases s.nextChar with
  | char ch buffer lines => exact .setReg { s with inbuf := buffer, input := lines } v d ch p
  | wait => exact .ok s v
  | failure => exact .error _

/-- Giving a register that no value operand names another value changes what an instruction answers in that
register at most. -/
theorem exec_setReg {i : Instr} {t : State} (h : exec i s = .next t) (hr : .reg r ∉ valueOperands i) :
    ∃ w, exec i (s.setReg r v) = .next (t.setReg r w) := by
  have h₁ {a : Operand} (hi : valueOperands i = [a]) : a ≠ .reg r := by
    rintro rfl; exact hr (by simp [hi])
  have h₂ {a b : Operand} (hi : valueOperands i = [a, b]) : a ≠ .reg r ∧ b ≠ .reg r := by
    constructor <;> (rintro rfl; exact hr (by simp [hi]))
  cases i with
  | halt => cases h; exact ⟨v, rfl⟩
  | set a b | not a b => exact SameOff.commit (.unary (h₁ rfl)) h
  | eq a b c | gt a b c | add a b c | mult a b c | and a b c | or a b c =>
    exact SameOff.commit (.binary (h₂ rfl).1 (h₂ rfl).2) h
  | mod a b c =>
    exact SameOff.commit (.bind rfl fun d => .bind (resolve_setReg_of_ne (h₂ rfl).1) fun vb =>
      .bind (resolve_setReg_of_ne (h₂ rfl).2) fun vc => .bind rfl fun _ => .bind rfl fun p =>
      .setReg s v d _ p) h
  | rmem a b =>
    exact SameOff.commit (.bind rfl fun d => .bind (resolve_setReg_of_ne (h₁ rfl)) fun addr =>
      .bind rfl fun _ => .bind rfl fun p => .setReg s v d _ p) h
  | jmp a => exact SameOff.commit (.jumpTo (h₁ rfl)) h
  | jt a b | jf a b => exact SameOff.commit (.jumpIf (h₂ rfl).1 (h₂ rfl).2) h
  | noop => exact SameOff.commit (.bind rfl fun p => .ok (s.setPc p) v) h
  | wmem a b =>
    exact SameOff.commit (.bind (resolve_setReg_of_ne (h₂ rfl).1) fun addr =>
      .bind (resolve_setReg_of_ne (h₂ rfl).2) fun x => .bind rfl fun p =>
      .ok ((s.memWrite addr x).setPc p) v) h
  | push a =>
    exact SameOff.commit (.bind (resolve_setReg_of_ne (h₁ rfl)) fun x => .bind rfl fun p =>
      .andThen (.checkedPush x) fun t w => .ok (t.setPc p) w) h
  | call a =>
    exact SameOff.commit (.bind (resolve_setReg_of_ne (h₁ rfl)) fun p => .bind rfl fun npc =>
      .andThen (.checkedPush npc) fun t w => .ok (t.setPc p) w) h
  | out a =>
    exact SameOff.commit (.bind (resolve_setReg_of_ne (h₁ rfl)) fun x => .bind rfl fun p =>
      .andThen (.outChar x) fun t w => .ok (t.setPc p) w) h
  | pop a => exact exec_pop_setReg h
  | ret => exact exec_ret_setReg h
  | in_ a => exact exec_in_setReg h

end Unread

end Sys2Proof.Machine

/-! ## The statements of 10_state -/

namespace Sys2Proof.Proofs

open Sys2Proof.Machine Sys2Proof.Claims

/-- Settles O49: a step keeps memory or writes one cell of the address space, and pushes only where there is
room. -/
theorem stepKeepsInvariant : Obligations.StepKeepsInvariant := by
  intro s t hinv hstep
  constructor
  case memory =>
    rcases step_mem hstep with hm | ⟨addr, v, hm⟩
    · rw [hm]; exact hinv.memory
    · rw [hm]; exact Memory.wf_write _ hinv.memory addr.isLt
  case stack =>
    intro depth hd
    rw [step_cfg hstep] at hd
    rcases step_stack_length hstep with hle | ⟨hroom, hlen⟩
    · exact hle.trans (hinv.stack depth hd)
    · rw [hlen]; exact length_lt_of_not_stackFull hroom hd

/-- Settles O33, from the frame of the registers. -/
theorem onlyDestinationRegisterChanges : Obligations.OnlyDestinationRegisterChanges := by
  intro i s t r h hr
  rcases exec_change h with ⟨k, rfl⟩ | hc
  · rfl
  · exact hc.regs_other hr

/-- Settles O34: both runs of the pseudocode pass the same checks and differ at most in the register. -/
theorem onlyValueOperandsAreRead : Obligations.OnlyValueOperandsAreRead := by
  intro i s t r v h hr
  obtain ⟨w, hw⟩ := exec_setReg (v := v) h hr
  exact ⟨t.setReg r w, hw, rfl, fun q hq => State.getReg_setReg_other t r q w hq⟩

/-- Settles O36, from the frame of the stack. -/
theorem onlyFourInstructionsTouchStack : Obligations.OnlyFourInstructionsTouchStack := by
  intro i s t h
  rcases exec_change h with ⟨k, rfl⟩ | hc
  · exact .inl rfl
  · rcases hc.stack with hs | ⟨hi, -, hs⟩ | hpop
    · exact .inl hs
    · exact .inr (.inl ⟨hi, hs⟩)
    · exact .inr (.inr hpop)

/-- Settles O37, from the frames of the streams and the parameters. -/
theorem streamsAndParametersFrame : Obligations.StreamsAndParametersFrame := by
  intro i s t h
  rcases exec_change h with ⟨k, rfl⟩ | hc
  · exact ⟨fun _ => ⟨rfl, rfl⟩, fun _ => ⟨rfl, rfl⟩, ⟨[], List.append_nil _⟩, Nat.le_succ _, rfl, rfl⟩
  · rcases hc.output with ⟨ho, hroom⟩ | ⟨a, v, hout, ho⟩
    · exact ⟨hc.input_of_ne_in, fun _ => ⟨ho, hroom⟩, ⟨[], by rw [ho, List.append_nil]⟩,
        by rw [ho]; exact Nat.le_succ _, hc.inputEnd, hc.cfg⟩
    · exact ⟨hc.input_of_ne_in, fun hi => absurd hout (hi a), ⟨[v], ho.symm⟩,
        by rw [ho, List.length_append, List.length_singleton], hc.inputEnd, hc.cfg⟩

/-- Settles O38: of the changes only those of `halt` and of `ret` on an empty stack end the run, and the
opcode of the instruction fetched is the word at `pc`. -/
theorem haltedOnlyByHaltOrEmptyRet : Obligations.HaltedOnlyByHaltOrEmptyRet := by
  intro s t hrun hstep hhalt
  rcases step_change hstep with rfl | ⟨k, rfl⟩ | ⟨i, hf, hc⟩
  · rw [hrun] at hhalt; cases hhalt
  · cases hhalt
  · rcases hc.run with hkept | ⟨-, rfl | ⟨rfl, hs⟩⟩
    · rw [hkept, hrun] at hhalt; cases hhalt
    · exact .inl (opcode_of_fetch hf).symm
    · exact .inr ⟨(opcode_of_fetch hf).symm, hs⟩

/-- Settles O44: the fetch raises other kinds, and an instruction raises it on a full stack only, which an
unbounded stack never is. -/
theorem unboundedStackNeverOverflows : Obligations.UnboundedStackNeverOverflows := by
  intro s t hrun hdepth hstep hover
  rcases step_cases hstep with ⟨hstop, -⟩ | ⟨-, k, rfl, hk⟩ | ⟨-, i, -, he⟩
  · exact hstop hrun
  · obtain rfl : k = .stackOverflow := RunState.faulted.inj hover
    rcases hk with hf | ⟨i, -, hraise⟩
    · rcases fetch_error_kind hf with ⟨_, h⟩ | ⟨_, h⟩ <;> cases h
    · obtain ⟨depth, hd, -⟩ := stackFull_eq_true_iff.1 (stackFull_of_raises_stackOverflow hraise)
      rw [hdepth] at hd
      cases hd
  · rcases he.run with hr | hr <;> rw [hr] at hover
    · rw [hrun] at hover; cases hover
    · cases hover

/-- Settles O50: a step writes at most one cell, with a value of 15 bits. -/
theorem noStepCreatesWideCell : Obligations.NoStepCreatesWideCell := by
  intro s t x hwf hstep hwide
  rcases step_mem hstep with hm | ⟨addr, v, hm⟩
  · rw [hm]
  · by_cases hx : x = addr.toNat
    · rw [hm, hx] at hwide
      exact absurd (read_write_zext16_le hwf addr.toNat v) (Nat.not_le.2 hwide)
    · rw [hm]; exact Memory.read_write_other _ _ hx

/-- Settles O54: what is delivered is the first character pending, and the rest stays pending. -/
theorem inputIsDeliveredInOrder : Obligations.InputIsDeliveredInOrder := by
  intro s d ch rest hpc hpending
  obtain ⟨buffer, lines, hc⟩ := nextChar_of_pending hpending
  have hrest := nextChar_char hc
  rw [hpending] at hrest
  exact ⟨_, exec_in_of_char hpc hc, rfl, (List.cons.inj hrest).2.symm, rfl⟩

/-- Settles O10: the fetch raises the fault, and the step commits nothing else. -/
theorem operandBeyondTopFaults : Obligations.OperandBeyondTopFaults := by
  intro s n hrun hn hgt
  exact step_fetchFault hrun (fetch_of_beyondTop hn hgt)

/-- Settles O11: a terminal state answers itself, so every run from it stays. -/
theorem terminalStatesStay : Obligations.TerminalStatesStay := by
  intro s k hrun
  exact ⟨step_stopped hrun, runFor_fixed (step_stopped hrun) k⟩

/-- Settles O47: memory and stack are empty, and the stack is unbounded. -/
theorem invariantAtReset : Obligations.InvariantAtReset where
  memory := Memory.wf_nil
  stack _ hd := by cases hd

end Sys2Proof.Proofs

/-! ## Memory (20_memory)

The two memory primitives against each other, the value operand as the statements say it, and the statements of
20_memory from them. -/

namespace Sys2Proof.Machine

open Sys2Proof.Claims

/-- 30_encoding R54: a value operand resolves to exactly the value that it stands for. -/
theorem resolve_eq_ok_iff {s : State} {o : Operand} {v : Value} :
    s.resolve o = .ok v ↔ Denotes s o v := by
  cases o <;> simp [Denotes]

/-- 20_memory R32: in canonical memory a write is read back, zero extended. -/
theorem memRead_memWrite_same {s : State} (hm : s.mem.wf = true) (addr : Addr) (v : Value) :
    (s.memWrite addr v).memRead addr = zext16 v :=
  Memory.read_write_same (zext16 v) hm

/-- 20_memory R32: a write changes no cell but the one at its address. -/
theorem memRead_memWrite_of_ne (s : State) {addr other : Addr} (v : Value) (h : other ≠ addr) :
    (s.memWrite addr v).memRead other = s.memRead other :=
  Memory.read_write_other s.mem (zext16 v) (BitVec.toNat_ne.1 h)

/-- 20_memory R33: an instruction keeps memory, or it is a `wmem` that wrote the one cell its first operand
stands for. -/
theorem exec_mem {i : Instr} {s t : State} (h : exec i s = .next t) :
    t.mem = s.mem ∨ ∃ a b addr v, i = .wmem a b ∧ s.resolve a = .ok addr ∧
      t.mem = s.mem.write addr.toNat (zext16 v) := by
  rcases exec_change h with ⟨k, rfl⟩ | hc
  · exact .inl rfl
  · exact hc.mem

end Sys2Proof.Machine

namespace Sys2Proof.Proofs

open Sys2Proof.Machine Sys2Proof.Claims

/-- Settles O35, from the frame of memory: the cell written is the one at the address that the first operand
stands for, which is unique. -/
theorem onlyWmemChangesMemory : Obligations.OnlyWmemChangesMemory := by
  intro i s t h
  rcases exec_mem h with hm | ⟨a, b, addr, v, rfl, haddr, hm⟩
  · exact ⟨fun _ => hm, fun _ _ _ _ _ x _ => by rw [hm]⟩
  · refine ⟨fun hi => absurd rfl (hi a b), fun a' b' addr' hi hden x hx => ?_⟩
    obtain ⟨rfl, -⟩ := Instr.wmem.inj hi
    obtain rfl : addr = addr' := Except.ok.inj (haddr.symm.trans (resolve_eq_ok_iff.2 hden))
    rw [hm]
    exact Memory.read_write_other s.mem (zext16 v) hx

/-- Settles O46, from the two rules of a read after a write. -/
theorem memoryPrimitives : Obligations.MemoryPrimitives := by
  intro s addr v hm
  constructor
  · rw [memRead_memWrite_same hm, toNat_zext16]
  · exact fun other h => memRead_memWrite_of_ne s v h

end Sys2Proof.Proofs

/-! ## The encoding (30_encoding)

What the words of an operand mean, what the decoder answers in each of its cases, and that an instruction is
its opcode and its operands. The two round trips, the fetch and the step follow from these. -/

namespace Sys2Proof

/-! ### The class of an operand word (30_encoding R53) -/

/-- A well-formed operand is the class of its own word and of no other. -/
theorem classify_eq_iff {w : Word} {o : Operand} (ho : o.wf = true) : classify w = o ↔ o.toWord = w := by
  constructor
  · rintro rfl; exact toWord_classify w
  · rintro rfl; exact classify_toWord ho

theorem classify_eq_lit_iff {w : Word} {v : Value} : classify w = .lit v ↔ v.toNat = w.toNat := by
  rw [classify_eq_iff rfl, ← BitVec.toNat_inj, Operand.toWord, toNat_zext16]

theorem classify_eq_reg_iff {w : Word} {r : RegIx} : classify w = .reg r ↔ w.toNat = 32768 + r.val := by
  rw [classify_eq_iff rfl, ← BitVec.toNat_inj, toNat_regWord, eq_comm]

theorem classify_eq_invalid_iff {w : Word} : classify w = .invalid w ↔ 32775 < w.toNat := by
  refine ⟨fun h => ?_, classify_of_gt⟩
  have hwf := classify_wf w
  rw [h] at hwf
  exact of_decide_eq_true hwf

/-! ### An instruction is its opcode and its operands (30_encoding R50, R58) -/

/-- 30_encoding R52: the table gives every instruction's opcode the number of its operands. -/
@[simp] theorem nargs?_opcode (i : Instr) : nargs? i.opcode = some i.operands.length := by
  cases i <;> rfl

theorem length_operands_le_maxArgs (i : Instr) : i.operands.length ≤ Config.maxArgs :=
  nargsTable_le_maxArgs _ (List.mem_of_getElem? (nargs?_opcode i))

theorem length_encode (i : Instr) : (encode i).length = i.operands.length + 1 := by
  simp [encode]

/-- An instruction is well formed when its operands are. -/
theorem wf_iff_operands (i : Instr) : i.wf = true ↔ ∀ o ∈ i.operands, o.wf = true := by
  cases i <;> simp [Instr.wf, Instr.operands, and_assoc]

/-- Every opcode below 22 selects an instruction. -/
theorem exists_assemble {n : Nat} (h : n < 22) (a b c : Operand) : ∃ i, assemble n a b c = some i := by
  interval_cases n <;> exact ⟨_, rfl⟩

/-- The instruction selected takes its operands from the front, in order. -/
theorem operands_of_assemble {n : Nat} {f : Nat → Operand} {i : Instr}
    (h : assemble n (f 0) (f 1) (f 2) = some i) :
    i.operands = (List.range i.operands.length).map f := by
  unfold assemble at h
  split at h <;> cases h <;> rfl

/-- An instruction is the one that its opcode selects for its operands. -/
theorem assemble_opcode_operands (i : Instr) (o : Operand) :
    assemble i.opcode.toNat (i.operands.getD 0 o) (i.operands.getD 1 o) (i.operands.getD 2 o) = some i := by
  cases i <;> rfl

theorem eq_of_opcode_of_operands {i j : Instr} (hop : i.opcode = j.opcode)
    (hargs : i.operands = j.operands) : i = j := by
  have hi := assemble_opcode_operands i (.lit 0)
  rw [hop, hargs, assemble_opcode_operands j] at hi
  exact (Option.some.inj hi).symm

/-! ### The decoder, one lemma per case -/

theorem decode_of_noEntry {op : Word} (hn : nargs? op = none) (ws : List Word) :
    decode (op :: ws) = .error (.illegalOpcode op) := by
  simp only [decode, hn]

theorem decode_of_short {op : Word} {ws : List Word} {n : Nat} (hn : nargs? op = some n)
    (hlen : ws.length < n) : decode (op :: ws) = .error (.missingOperand n) := by
  simp only [decode, hn, if_pos hlen]

/-- 30_encoding R50: with enough words the decoder answers the instruction of the opcode word, whose operands
are the next words classified, and leaves the rest. -/
theorem decode_of_entry {op : Word} {ws : List Word} {n : Nat} (hn : nargs? op = some n)
    (hlen : n ≤ ws.length) :
    ∃ i : Instr, decode (op :: ws) = .ok (i, ws.drop n) ∧ i.opcode = op ∧
      i.operands = (ws.take n).map classify := by
  have hlt : op.toNat < 22 := (nargs?_isSome_iff op).1 (by rw [hn]; rfl)
  obtain ⟨i, hi⟩ := exists_assemble hlt (classify (ws.getD 0 0)) (classify (ws.getD 1 0))
    (classify (ws.getD 2 0))
  have hop : i.opcode = op := BitVec.eq_of_toNat_eq (Machine.opcode_of_assemble hi)
  have hcount : i.operands.length = n := Option.some.inj (by rw [← nargs?_opcode, hop, hn])
  have hargs := operands_of_assemble (f := fun k => classify (ws.getD k 0)) hi
  refine ⟨i, by simp only [decode, hn, if_neg (Nat.not_lt.2 hlen), hi], hop, ?_⟩
  rw [hargs, hcount]
  apply List.ext_getElem
  · simp [hlen]
  · intro k hk _
    have hkn : k < n := by simpa using hk
    simp [List.getElem?_eq_getElem (hkn.trans_le hlen)]

/-- What a list was made of that the decoder reads an instruction from: its opcode word, its operand words, and
the words left over. -/
theorem words_of_decode {ws rest : List Word} {i : Instr} (h : decode ws = .ok (i, rest)) :
    ∃ args : List Word, ws = i.opcode :: (args ++ rest) ∧ i.operands = args.map classify := by
  cases ws with
  | nil => cases h
  | cons op ws =>
    cases hn : nargs? op with
    | none => rw [decode_of_noEntry hn] at h; cases h
    | some n =>
      rcases Nat.lt_or_ge ws.length n with hlen | hlen
      · rw [decode_of_short hn hlen] at h; cases h
      · obtain ⟨j, hj, hop, hargs⟩ := decode_of_entry hn hlen
        rw [hj] at h
        cases h
        exact ⟨ws.take n, by rw [hop, List.take_append_drop], hargs⟩

/-! ### The round trips -/

/-- 30_encoding R57: the words of well-formed operands are classified back to the operands. -/
theorem map_classify_toWord {os : List Operand} (h : ∀ o ∈ os, o.wf = true) :
    (os.map Operand.toWord).map classify = os := by
  rw [List.map_map]
  exact (List.map_congr_left fun o ho => classify_toWord (h o ho)).trans (List.map_id os)

theorem map_toWord_classify (ws : List Word) : (ws.map classify).map Operand.toWord = ws := by
  simp [Function.comp_def, toWord_classify]

theorem decode_encode_append {i : Instr} (hwf : i.wf = true) (rest : List Word) :
    decode (encode i ++ rest) = .ok (i, rest) := by
  have hlen : (i.operands.map Operand.toWord).length = i.operands.length := List.length_map _
  obtain ⟨j, hj, hop, hargs⟩ := decode_of_entry (ws := i.operands.map Operand.toWord ++ rest)
    (nargs?_opcode i) (by rw [List.length_append, hlen]; exact Nat.le_add_right _ _)
  rw [List.take_left' hlen, map_classify_toWord ((wf_iff_operands i).1 hwf)] at hargs
  rw [List.drop_left' hlen, eq_of_opcode_of_operands hop hargs] at hj
  exact hj

theorem wf_of_decode {ws rest : List Word} {i : Instr} (h : decode ws = .ok (i, rest)) :
    i.wf = true := by
  obtain ⟨args, -, hargs⟩ := words_of_decode h
  rw [wf_iff_operands, hargs, List.forall_mem_map]
  exact fun w _ => classify_wf w

theorem encode_append_of_decode {ws rest : List Word} {i : Instr} (h : decode ws = .ok (i, rest)) :
    encode i ++ rest = ws := by
  obtain ⟨args, hws, hargs⟩ := words_of_decode h
  rw [encode, hargs, map_toWord_classify, hws, List.cons_append]

end Sys2Proof

namespace Sys2Proof.Machine

/-! ### The fetch of given words (30_encoding R62) -/

/-- The fetch reads `ws` when the cells from `a` on hold it. -/
theorem wordsAt_eq_of_read {s : State} {a : Nat} {ws : List Word}
    (h : ∀ (k : Nat) (hk : k < ws.length), s.mem.read (a + k) = ws[k]) : s.wordsAt a ws.length = ws := by
  induction ws generalizing a with
  | nil => rfl
  | cons w ws ih =>
    have hhead : s.mem.read a = w := h 0 (Nat.succ_pos _)
    have htail : s.wordsAt (a + 1) ws.length = ws := ih fun k hk => by
      rw [Nat.add_right_comm]
      exact h (k + 1) (Nat.succ_lt_succ hk)
    rw [List.length_cons, State.wordsAt, hhead, htail]

/-- The cells from `pc` on hold the words of `i`. -/
def State.HoldsAtPc (s : State) (i : Instr) : Prop :=
  ∀ (k : Nat) (h : k < (encode i).length), s.mem.read (s.pc.toNat + k) = (encode i)[k]

/-- A well-formed instruction whose words stand at `pc` and end at address 32767 at most is fetched. -/
theorem fetch_of_holdsAtPc {s : State} {i : Instr} (hwf : i.wf = true)
    (hfit : s.pc.toNat + i.operands.length ≤ 32767) (hmem : s.HoldsAtPc i) : s.fetch = .ok i := by
  have hop : s.memRead s.pc = i.opcode := hmem 0 (Nat.succ_pos _)
  have hdec : decode (encode i) = .ok (i, []) := by
    simpa only [List.append_nil] using decode_encode_append hwf []
  unfold State.fetch
  simp only [hop, nargs?_opcode]
  rw [if_neg (Nat.not_lt.2 hfit), ← length_encode, wordsAt_eq_of_read hmem, hdec]

/-- The words the host places are read back from `pc` on, where all four lie in memory. -/
theorem read_withFetchWord {s : State} (hm : s.mem.wf = true) (hpc : s.pc.toNat + 3 ≤ 32767) (nbits w : Nat)
    {k : Nat} (hk : k < (tableWords nbits w).length) :
    (s.withFetchWord nbits w).mem.read (s.pc.toNat + k) = (tableWords nbits w)[k] :=
  Memory.read_storeWords hm (Nat.succ_le_succ hpc) k hk

/-- The host's reading of a table word is the decoder's reading of its four words. -/
theorem decode_of_decodeTableWord {nbits w : Nat} {i : Instr} (h : decodeTableWord nbits w = some i) :
    ∃ rest, decode (tableWords nbits w) = .ok (i, rest) := by
  unfold decodeTableWord at h
  split at h
  · rename_i j rest hd
    cases h
    exact ⟨rest, hd⟩
  · cases h

/-- The instruction read from a table word stands at `pc` once the host has placed that word. -/
theorem holdsAtPc_withFetchWord {s : State} {nbits w : Nat} {i : Instr} {rest : List Word}
    (hm : s.mem.wf = true) (hpc : s.pc.toNat + 3 ≤ 32767)
    (hd : decode (tableWords nbits w) = .ok (i, rest)) : (s.withFetchWord nbits w).HoldsAtPc i := by
  intro k hk
  have hwords : encode i ++ rest = tableWords nbits w := encode_append_of_decode hd
  have hk' : k < (tableWords nbits w).length := by
    rw [← hwords, List.length_append]; exact Nat.lt_add_right _ hk
  rw [State.withFetchWord_pc, read_withFetchWord hm hpc nbits w hk']
  simp only [← hwords, List.getElem_append_left hk]

end Sys2Proof.Machine

namespace Sys2Proof.Proofs

open Sys2Proof.Machine

/-- Settles O2: the decoder answers an instruction with the opcode and the operands of the one encoded, and
these two determine it. -/
theorem decodeOfEncode : Obligations.DecodeOfEncode :=
  fun _ rest hwf => decode_encode_append hwf rest

/-- Settles O3, from what the list was made of: a classified word is well formed and has the word back. -/
theorem encodeOfDecode : Obligations.EncodeOfDecode :=
  fun _ _ _ h => ⟨wf_of_decode h, encode_append_of_decode h⟩

/-- Settles O4, from the decoder's two cases for an opcode word with a table entry. -/
theorem operandCountsAreTheTable : Obligations.OperandCountsAreTheTable :=
  fun _ _ _ hn => ⟨decode_of_entry hn, decode_of_short hn⟩

/-- Settles O8: the instruction is fetched, and the step runs what is fetched. -/
theorem stepRunsDecodedInstruction : Obligations.StepRunsDecodedInstruction :=
  fun _ _ hrun hwf hfit hmem => step_running hrun (fetch_of_holdsAtPc hwf hfit hmem)

/-- Settles O13: the words placed begin with the instruction's own, which are then the words at `pc`. -/
theorem placedInstructionRuns : Obligations.PlacedInstructionRuns := by
  intro s nbits w i hm hi hpc
  obtain ⟨rest, hd⟩ := decode_of_decodeTableWord hi
  have hfit : s.pc.toNat + i.operands.length ≤ 32767 :=
    (Nat.add_le_add_left (length_operands_le_maxArgs i) _).trans hpc
  exact step_running rfl (fetch_of_holdsAtPc (wf_of_decode hd) hfit (holdsAtPc_withFetchWord hm hpc hd))

/-- Settles O1: each list is evaluated. -/
theorem specWordsDecode : Obligations.SpecWordsDecode :=
  ⟨rfl, rfl, rfl, rfl, rfl, rfl, rfl, rfl, rfl, rfl, rfl, rfl⟩

/-- Settles O5: each class is the one whose word has the number. -/
theorem operandWordClasses : Obligations.OperandWordClasses := by
  intro w
  refine ⟨⟨fun h => ?_, ?_⟩, ⟨fun h => ?_, ?_⟩, classify_eq_invalid_iff.symm⟩
  · have hv : (trunc15 w).toNat = w.toNat := by rw [toNat_trunc15]; omega
    exact ⟨trunc15 w, classify_eq_lit_iff.2 hv, hv⟩
  · rintro ⟨v, -, hv⟩
    have := v.isLt
    omega
  · exact ⟨⟨w.toNat - 32768, by omega⟩, classify_eq_reg_iff.2 (Nat.add_sub_cancel' h.1).symm, rfl⟩
  · rintro ⟨r, hr, -⟩
    have hw := classify_eq_reg_iff.1 hr
    have := r.isLt
    omega

/-- Settles O6, from the class of the word. -/
theorem resolveOfWord : Obligations.ResolveOfWord := by
  intro s w
  refine ⟨fun h => ?_, fun r h => ?_, fun h => ?_⟩
  · rw [classify_of_lt h]
    exact ⟨trunc15 w, by rw [toNat_trunc15, Nat.mod_eq_of_lt h], resolve_lit s _⟩
  · rw [classify_eq_reg_iff.2 h, resolve_reg]
  · rw [classify_of_gt h, resolve_invalid]

/-- Settles O7: only a word from 32768 to 32775 is a register reference, and the fault records the word that
was classified. -/
theorem destinationOfWord : Obligations.DestinationOfWord := by
  intro w
  refine ⟨fun r h => dst_eq_ok_iff.2 (classify_eq_reg_iff.2 h), fun h => ?_⟩
  rw [dst_eq_error_iff, toWord_classify]
  refine ⟨fun r hr => ?_, rfl⟩
  have hw := classify_eq_reg_iff.1 hr
  have := r.isLt
  omega

end Sys2Proof.Proofs

/-! ## `halt` and `noop` (40_halt_noop)

The next state of each of the two instructions, by the model's own names for what it does, and the two statements
from them. -/

namespace Sys2Proof.Machine

/-- 40_halt_noop R70: `halt` ends the run in every state. -/
theorem exec_halt (s : State) : exec .halt s = .next s.halt := rfl

/-- 40_halt_noop R70: the `pc` that a halt leaves is the address after the instruction, modulo 32768. -/
theorem halt_pc_mod (s : State) : s.halt.pc = BitVec.ofNat 15 ((s.pc.toNat + 1) % 32768) := by
  apply BitVec.eq_of_toNat_eq
  simp only [State.halt_pc, State.npc, BitVec.toNat_ofNat, Nat.add_zero, Nat.reducePow, Nat.mod_mod]

/-- 40_halt_noop R71: the pseudocode of `noop` is `Advance()` alone. -/
theorem exec_noop (s : State) :
    exec .noop s = s.commit (s.checkedNpc 0 >>= fun npc => .ok (s.setPc npc)) := rfl

/-- 40_halt_noop R71: `noop` goes on to the next address, where there is one. -/
theorem exec_noop_of_le {s : State} (h : s.pc.toNat + 1 ≤ 32767) :
    exec .noop s = .next (s.setPc (BitVec.ofNat 15 (s.pc.toNat + 1))) := by
  rw [exec_noop, checkedNpc_of_le h, ok_bind, commit_ok, Nat.add_zero]

/-- 40_halt_noop R71: `noop` raises `AddressOutOfRange` where there is no next address. -/
theorem exec_noop_of_gt {s : State} (h : 32767 < s.pc.toNat + 1) :
    exec .noop s = .next (s.raise (.addressOutOfRange (s.pc.toNat + 1))) := by
  rw [exec_noop, checkedNpc_of_gt h, error_bind, commit_error, Nat.add_zero]

end Sys2Proof.Machine

namespace Sys2Proof.Proofs

open Sys2Proof.Machine Sys2Proof.Claims

/-- Settles O14: `halt` changes `run` and `pc` alone, and the new `pc` is the address after it modulo 32768. -/
theorem haltRule : Obligations.HaltRule := by
  refine ⟨rfl, fun s => ?_⟩
  rw [exec_halt, ← halt_pc_mod]
  rfl

/-- Settles O15: at address 32767, and only there, `noop` has no next address. -/
theorem noopRule : Obligations.NoopRule := by
  refine ⟨rfl, fun s => ⟨fun h => exec_noop_of_le h, fun h => ?_⟩⟩
  have hfault := exec_noop_of_gt (s := s) (by omega)
  rw [h] at hfault
  exact hfault

end Sys2Proof.Proofs

/-! ## `set`, `push` and `pop` (41_set_push_pop)

What each of the three answers in each case of its pseudocode, in the order of the checks, and the statements from
these. The cases of `set` are those of the shape `F2DV`, proved for every instruction of that shape. -/

namespace Sys2Proof.Machine

open Sys2Proof.Claims

theorem dst_of_notRegister {a : Operand} (ha : NotRegister a) :
    dst a = .error (.invalidDestination a.toWord) := dst_eq_error_iff.2 ⟨ha, rfl⟩

/-! ### The shape `F2DV` -/

section Unary

variable {s : State} {f : Value → Value} {a b : Operand} {d : RegIx} {v : Value}

theorem unary_of_notRegister (ha : NotRegister a) :
    s.unary f a b = .error (.invalidDestination a.toWord) := by
  rw [State.unary, dst_of_notRegister ha, error_bind]

theorem unary_reg_invalid (w : Word) : s.unary f (.reg d) (.invalid w) = .error (.invalidOperand w) := rfl

theorem unary_reg_of_gt (hb : Denotes s b v) (hpc : 32767 < s.pc.toNat + 3) :
    s.unary f (.reg d) b = .error (.addressOutOfRange (s.pc.toNat + 3)) := by
  have hn : s.checkedNpc 2 = .error (.addressOutOfRange (s.pc.toNat + 3)) := checkedNpc_of_gt hpc
  rw [State.unary, dst_reg, ok_bind, resolve_eq_ok_iff.2 hb, ok_bind, hn, error_bind]

theorem unary_reg_of_le (hb : Denotes s b v) (hpc : s.pc.toNat + 3 ≤ 32767) :
    s.unary f (.reg d) b = .ok ((s.setReg d (f v)).setPc (BitVec.ofNat 15 (s.pc.toNat + 3))) := by
  have hn : s.checkedNpc 2 = .ok (BitVec.ofNat 15 (s.pc.toNat + 3)) := checkedNpc_of_le hpc
  rw [State.unary, dst_reg, ok_bind, resolve_eq_ok_iff.2 hb, ok_bind, hn, ok_bind, pure_eq_ok]

end Unary

/-- An instruction that is the shared pseudocode of format `F2DV` on values `g`, committed, obeys the rule of that
format for the same computation on numbers. -/
theorem unaryRule_of_exec {mk : Operand → Operand → Instr} {op : Word} {f : Nat → Nat} (g : Value → Value)
    (hencode : ∀ a b, encode (mk a b) = [op, a.toWord, b.toWord])
    (hexec : ∀ a b s, exec (mk a b) s = s.commit (s.unary g a b))
    (hg : ∀ v, g v = BitVec.ofNat 15 (f v.toNat)) : UnaryRule mk op f := by
  intro s a b
  refine ⟨hencode a b, fun ha => ?_, ?_, ?_, ?_⟩
  · rw [Faults, hexec, unary_of_notRegister ha]
    rfl
  · rintro d w rfl rfl
    rw [Faults, hexec, unary_reg_invalid]
    rfl
  · rintro d v rfl hb hpc
    rw [Faults, hexec, unary_reg_of_gt hb hpc]
    rfl
  · rintro d v rfl hb hpc
    rw [hexec, unary_reg_of_le hb hpc, hg]
    rfl

/-! ### Room on the stack (10_state R17) -/

theorem stackFull_eq_false_iff {s : State} : s.stackFull = false ↔ StackHasRoom s := by
  rw [← Bool.not_eq_true, stackFull_eq_true_iff]
  simp [StackHasRoom]

theorem checkedPush_of_full {s : State} (h : s.cfg.stackDepth = some s.stack.length) (v : Value) :
    s.checkedPush v = .error .stackOverflow :=
  checkedPush_eq_error_iff.2 ⟨stackFull_eq_true_iff.2 ⟨_, h, le_rfl⟩, rfl⟩

theorem checkedPush_of_room {s : State} (h : StackHasRoom s) (v : Value) :
    s.checkedPush v = .ok (s.pushValue v) :=
  checkedPush_eq_ok_iff.2 ⟨stackFull_eq_false_iff.2 h, rfl⟩

/-! ### `push` (41_set_push_pop R76) -/

section Push

variable {s : State} {a : Operand} {v : Value}

/-- The pseudocode of `push`. -/
theorem exec_push (a : Operand) (s : State) :
    exec (.push a) s = s.commit (s.resolve a >>= fun v => s.checkedNpc 1 >>= fun npc =>
      s.checkedPush v >>= fun t => .ok (t.setPc npc)) := rfl

theorem exec_push_invalid (w : Word) (s : State) :
    exec (.push (.invalid w)) s = .next (s.raise (.invalidOperand w)) := rfl

theorem exec_push_of_gt (ha : Denotes s a v) (hpc : 32767 < s.pc.toNat + 2) :
    exec (.push a) s = .next (s.raise (.addressOutOfRange (s.pc.toNat + 2))) := by
  have hn : s.checkedNpc 1 = .error (.addressOutOfRange (s.pc.toNat + 2)) := checkedNpc_of_gt hpc
  rw [exec_push, resolve_eq_ok_iff.2 ha, ok_bind, hn, error_bind, commit_error]

/-- Where the instruction does not end at the top of memory, the capacity check decides. -/
theorem exec_push_of_le (ha : Denotes s a v) (hpc : s.pc.toNat + 2 ≤ 32767) :
    exec (.push a) s = s.commit (s.checkedPush v >>= fun t =>
      .ok (t.setPc (BitVec.ofNat 15 (s.pc.toNat + 2)))) := by
  have hn : s.checkedNpc 1 = .ok (BitVec.ofNat 15 (s.pc.toNat + 2)) := checkedNpc_of_le hpc
  rw [exec_push, resolve_eq_ok_iff.2 ha, ok_bind, hn, ok_bind]

theorem exec_push_of_full (ha : Denotes s a v) (hpc : s.pc.toNat + 2 ≤ 32767)
    (hfull : s.cfg.stackDepth = some s.stack.length) :
    exec (.push a) s = .next (s.raise .stackOverflow) := by
  rw [exec_push_of_le ha hpc, checkedPush_of_full hfull, error_bind, commit_error]

theorem exec_push_of_room (ha : Denotes s a v) (hpc : s.pc.toNat + 2 ≤ 32767) (hroom : StackHasRoom s) :
    exec (.push a) s = .next ((s.pushValue v).setPc (BitVec.ofNat 15 (s.pc.toNat + 2))) := by
  rw [exec_push_of_le ha hpc, checkedPush_of_room hroom, ok_bind, commit_ok]

end Push

/-! ### `pop` (41_set_push_pop R77) -/

section Pop

variable {s : State} {d : RegIx} {v : Value} {rest : List Value}

theorem exec_pop_of_notRegister {a : Operand} (ha : NotRegister a) (s : State) :
    exec (.pop a) s = .next (s.raise (.invalidDestination a.toWord)) := by
  rw [exec, execPop, dst_of_notRegister ha, error_bind, commit_error]

theorem exec_pop_of_empty (hs : s.stack = []) :
    exec (.pop (.reg d)) s = .next (s.raise .stackUnderflow) := by
  simp only [exec, execPop, dst_reg, ok_bind, hs, commit_error]

/-- With an entry on the stack, the check for the top of memory decides. -/
theorem exec_pop_of_cons (hs : s.stack = v :: rest) :
    exec (.pop (.reg d)) s = s.commit (s.checkedNpc 1 >>= fun npc =>
      .ok (({ s with stack := rest }.setReg d v).setPc npc)) := by
  simp only [exec, execPop, dst_reg, ok_bind, hs, pure_eq_ok]

theorem exec_pop_of_gt (hs : s.stack = v :: rest) (hpc : 32767 < s.pc.toNat + 2) :
    exec (.pop (.reg d)) s = .next (s.raise (.addressOutOfRange (s.pc.toNat + 2))) := by
  have hn : s.checkedNpc 1 = .error (.addressOutOfRange (s.pc.toNat + 2)) := checkedNpc_of_gt hpc
  rw [exec_pop_of_cons hs, hn, error_bind, commit_error]

theorem exec_pop_of_le (hs : s.stack = v :: rest) (hpc : s.pc.toNat + 2 ≤ 32767) :
    exec (.pop (.reg d)) s = .next (({ s with stack := rest }.setReg d v).setPc
      (BitVec.ofNat 15 (s.pc.toNat + 2))) := by
  have hn : s.checkedNpc 1 = .ok (BitVec.ofNat 15 (s.pc.toNat + 2)) := checkedNpc_of_le hpc
  rw [exec_pop_of_cons hs, hn, ok_bind, commit_ok]

end Pop

/-! ### Instructions that complete -/

/-- An instruction that leaves the machine Running entered no fault, so it had its effect. -/
theorem effect_of_exec_running {i : Instr} {s t : State} (h : exec i s = .next t) (hrun : t.run = .running) :
    Effect s t i := by
  rcases exec_cases h with ⟨k, -, rfl⟩ | he
  · cases hrun
  · exact he

/-- A `push` that completes leaves the value its operand stands for on top of the stack. -/
theorem stack_of_push {s t : State} {a : Operand} {v : Value} (ha : Denotes s a v)
    (h : exec (.push a) s = .next t) (hrun : t.run = .running) : t.stack = v :: s.stack := by
  obtain ⟨x, npc, hx, -, -, rfl⟩ := effect_of_exec_running h hrun
  obtain rfl : x = v := Except.ok.inj (hx.symm.trans (resolve_eq_ok_iff.2 ha))
  rfl

end Sys2Proof.Machine

namespace Sys2Proof.Proofs

open Sys2Proof.Machine Sys2Proof.Claims

/-- Settles O17, a case of the pseudocode for each clause. -/
theorem pushRule : Obligations.PushRule := by
  intro s a
  refine ⟨rfl, ?_, fun _ => exec_push_of_gt, fun _ => exec_push_of_full, fun _ => exec_push_of_room⟩
  rintro w rfl
  exact exec_push_invalid w s

/-- Settles O18, a case of the pseudocode for each clause. -/
theorem popRule : Obligations.PopRule := by
  intro s a
  refine ⟨rfl, fun ha => exec_pop_of_notRegister ha s, ?_, ?_, ?_⟩
  · rintro d rfl hs
    exact exec_pop_of_empty hs
  · rintro d v rest rfl hs hpc
    exact exec_pop_of_gt hs hpc
  · rintro d v rest rfl hs hpc
    exact exec_pop_of_le hs hpc

/-- Settles O52: the value pushed is on top of the stack that the `pop` finds. -/
theorem pushThenPopRoundTrip : Obligations.PushThenPopRoundTrip := by
  intro s t u a v d _ ha hpush hrun hstack hpc
  exact exec_pop_of_le (hstack.trans (stack_of_push ha hpush hrun)) hpc

/-- Settles O16: `set` is the shape `F2DV` with the value itself. -/
theorem setRule : Obligations.SetRule :=
  unaryRule_of_exec (fun v => v) (fun _ _ => rfl) (fun _ _ _ => rfl)
    fun v => ((BitVec.ofNat_toNat 15 v).trans v.setWidth_eq).symm

end Sys2Proof.Proofs

/-! ## `eq` and `gt` (42_eq_gt)

The cases of the shape `F3DVV`, proved for every instruction of that shape, and the statement about the two
comparisons from these. -/

namespace Sys2Proof.Machine

open Sys2Proof.Claims

/-! ### The shape `F3DVV` -/

section Binary

variable {s : State} {f : Value → Value → Value} {a b c : Operand} {d : RegIx} {vb vc : Value}

theorem binary_of_notRegister (ha : NotRegister a) :
    s.binary f a b c = .error (.invalidDestination a.toWord) := by
  rw [State.binary, dst_of_notRegister ha, error_bind]

theorem binary_reg_invalid (w : Word) :
    s.binary f (.reg d) (.invalid w) c = .error (.invalidOperand w) := rfl

theorem binary_reg_denotes_invalid (hb : Denotes s b vb) (w : Word) :
    s.binary f (.reg d) b (.invalid w) = .error (.invalidOperand w) := by
  rw [State.binary, dst_reg, ok_bind, resolve_eq_ok_iff.2 hb]
  rfl

/-- With valid operands, the check for the top of memory decides. -/
theorem binary_reg_of_denotes (hb : Denotes s b vb) (hc : Denotes s c vc) :
    s.binary f (.reg d) b c =
      s.checkedNpc 3 >>= fun npc => .ok ((s.setReg d (f vb vc)).setPc npc) := by
  rw [State.binary, dst_reg, ok_bind, resolve_eq_ok_iff.2 hb, ok_bind, resolve_eq_ok_iff.2 hc, ok_bind]
  rfl

theorem binary_reg_of_gt (hb : Denotes s b vb) (hc : Denotes s c vc) (hpc : 32767 < s.pc.toNat + 4) :
    s.binary f (.reg d) b c = .error (.addressOutOfRange (s.pc.toNat + 4)) := by
  have hn : s.checkedNpc 3 = .error (.addressOutOfRange (s.pc.toNat + 4)) := checkedNpc_of_gt hpc
  rw [binary_reg_of_denotes hb hc, hn, error_bind]

theorem binary_reg_of_le (hb : Denotes s b vb) (hc : Denotes s c vc) (hpc : s.pc.toNat + 4 ≤ 32767) :
    s.binary f (.reg d) b c =
      .ok ((s.setReg d (f vb vc)).setPc (BitVec.ofNat 15 (s.pc.toNat + 4))) := by
  have hn : s.checkedNpc 3 = .ok (BitVec.ofNat 15 (s.pc.toNat + 4)) := checkedNpc_of_le hpc
  rw [binary_reg_of_denotes hb hc, hn, ok_bind]

end Binary

/-- An instruction that is the shared pseudocode of format `F3DVV` on values `g`, committed, obeys the rule of that
format for the same computation on numbers. -/
theorem binaryRule_of_exec {mk : Operand → Operand → Operand → Instr} {op : Word} {f : Nat → Nat → Nat}
    (g : Value → Value → Value)
    (hencode : ∀ a b c, encode (mk a b c) = [op, a.toWord, b.toWord, c.toWord])
    (hexec : ∀ a b c s, exec (mk a b c) s = s.commit (s.binary g a b c))
    (hg : ∀ x y, g x y = BitVec.ofNat 15 (f x.toNat y.toNat)) : BinaryRule mk op f := by
  intro s a b c
  refine ⟨hencode a b c, fun ha => ?_, ?_, ?_, ?_, ?_⟩
  · rw [Faults, hexec, binary_of_notRegister ha]
    rfl
  · rintro d w rfl rfl
    rw [Faults, hexec, binary_reg_invalid]
    rfl
  · rintro d vb w rfl hb rfl
    rw [Faults, hexec, binary_reg_denotes_invalid hb]
    rfl
  · rintro d vb vc rfl hb hc hpc
    rw [Faults, hexec, binary_reg_of_gt hb hc hpc]
    rfl
  · rintro d vb vc rfl hb hc hpc
    rw [hexec, binary_reg_of_le hb hc hpc, hg]
    rfl

/-! ### The result of a comparison (10_state R22) -/

theorem truthValue_decide (p : Prop) [Decidable p] :
    truthValue (decide p) = BitVec.ofNat 15 (if p then 1 else 0) := by
  by_cases hp : p <;> simp [truthValue, hp]

/-- Two values are equal exactly when their numbers are. -/
theorem truthValue_eq (x y : Value) :
    truthValue (decide (x = y)) = BitVec.ofNat 15 (if x.toNat = y.toNat then 1 else 0) := by
  simp only [truthValue_decide, BitVec.toNat_inj]

end Sys2Proof.Machine

namespace Sys2Proof.Proofs

open Sys2Proof.Machine Sys2Proof.Claims

/-- Settles O19: each comparison is the shape `F3DVV` with the truth value of its test. -/
theorem eqGtRules : Obligations.EqGtRules :=
  ⟨binaryRule_of_exec _ (fun _ _ _ => rfl) (fun _ _ _ _ => rfl) truthValue_eq,
    binaryRule_of_exec _ (fun _ _ _ => rfl) (fun _ _ _ _ => rfl) fun x y => truthValue_decide (y.toNat < x.toNat)⟩

end Sys2Proof.Proofs

/-! ## `jmp`, `jt` and `jf` (43_jmp_jt_jf)

What a jump and a conditional jump answer in each case of their pseudocode, for every test of the condition's value,
and the statements from these. -/

namespace Sys2Proof.Machine

open Sys2Proof.Claims

section Jump

variable {s : State} {f : Value → Bool} {a b : Operand} {v t : Value}

theorem jumpTo_invalid (w : Word) : s.jumpTo (.invalid w) = .error (.invalidOperand w) := rfl

theorem jumpTo_of_denotes (hb : Denotes s b t) : s.jumpTo b = .ok (s.setPc t) := by
  rw [State.jumpTo, resolve_eq_ok_iff.2 hb, ok_bind, pure_eq_ok]

theorem jumpIf_invalid (w : Word) : s.jumpIf f (.invalid w) b = .error (.invalidOperand w) := rfl

/-- 43_jmp_jt_jf R86, R87: a conditional jump that is taken is the jump to its second operand. -/
theorem jumpIf_of_taken (ha : Denotes s a v) (hv : f v = true) : s.jumpIf f a b = s.jumpTo b := by
  rw [State.jumpIf, resolve_eq_ok_iff.2 ha, ok_bind, if_pos hv]

/-- 92_eei_decisions D10: where the jump is not taken, the check for the top of memory decides, whatever the second
operand is. -/
theorem jumpIf_of_not_taken (ha : Denotes s a v) (hv : ¬ f v = true) :
    s.jumpIf f a b = s.checkedNpc 2 >>= fun npc => .ok (s.setPc npc) := by
  rw [State.jumpIf, resolve_eq_ok_iff.2 ha, ok_bind, if_neg hv]
  rfl

theorem jumpIf_of_gt (ha : Denotes s a v) (hv : ¬ f v = true) (hpc : 32767 < s.pc.toNat + 3) :
    s.jumpIf f a b = .error (.addressOutOfRange (s.pc.toNat + 3)) := by
  have hn : s.checkedNpc 2 = .error (.addressOutOfRange (s.pc.toNat + 3)) := checkedNpc_of_gt hpc
  rw [jumpIf_of_not_taken ha hv, hn, error_bind]

theorem jumpIf_of_le (ha : Denotes s a v) (hv : ¬ f v = true) (hpc : s.pc.toNat + 3 ≤ 32767) :
    s.jumpIf f a b = .ok (s.setPc (BitVec.ofNat 15 (s.pc.toNat + 3))) := by
  have hn : s.checkedNpc 2 = .ok (BitVec.ofNat 15 (s.pc.toNat + 3)) := checkedNpc_of_le hpc
  rw [jumpIf_of_not_taken ha hv, hn, ok_bind]

end Jump

/-- 43_jmp_jt_jf R85: the pseudocode of `jmp` is the jump alone. -/
theorem exec_jmp (a : Operand) (s : State) : exec (.jmp a) s = s.commit (s.jumpTo a) := rfl

/-- An instruction that is the shared pseudocode of a conditional jump on the test `g` of values, committed, obeys the
rule of a conditional jump for the same test of numbers. -/
theorem branchRule_of_exec {mk : Operand → Operand → Instr} {op : Word} {taken : Nat → Prop} (g : Value → Bool)
    (hencode : ∀ a b, encode (mk a b) = [op, a.toWord, b.toWord])
    (hexec : ∀ a b s, exec (mk a b) s = s.commit (s.jumpIf g a b))
    (hg : ∀ v, g v = true ↔ taken v.toNat) : BranchRule mk op taken := by
  simp only [BranchRule, Faults, hexec, ← hg]
  intro s a b
  refine ⟨hencode a b, ?_, ?_, ?_, ?_, ?_⟩
  · rintro w rfl
    rw [jumpIf_invalid]
    rfl
  · rintro v w ha hv rfl
    rw [jumpIf_of_taken ha hv, jumpTo_invalid]
    rfl
  · intro v t ha hv hb
    rw [jumpIf_of_taken ha hv, jumpTo_of_denotes hb]
    rfl
  · intro v ha hv hpc
    rw [jumpIf_of_gt ha hv hpc]
    rfl
  · intro v ha hv hpc
    rw [jumpIf_of_le ha hv hpc]
    rfl

/-! ### The test of a value for zero (10_state R22) -/

theorem isNonzero_eq_true_iff (v : Value) : isNonzero v = true ↔ v.toNat ≠ 0 := by
  rw [isNonzero, decide_eq_true_iff, BitVec.toNat_ne]
  rfl

theorem not_isNonzero_eq_true_iff (v : Value) : (!isNonzero v) = true ↔ v.toNat = 0 := by
  rw [Bool.not_eq_true', ← Bool.not_eq_true, isNonzero_eq_true_iff, not_not]

end Sys2Proof.Machine

namespace Sys2Proof.Proofs

open Sys2Proof.Machine Sys2Proof.Claims

/-- Settles O21: each of the two is the shape of a conditional jump, with the test for a non-zero value or its
complement. -/
theorem jtJfRules : Obligations.JtJfRules :=
  ⟨branchRule_of_exec isNonzero (fun _ _ => rfl) (fun _ _ _ => rfl) isNonzero_eq_true_iff,
    branchRule_of_exec (fun v => !isNonzero v) (fun _ _ => rfl) (fun _ _ _ => rfl) not_isNonzero_eq_true_iff⟩

/-- Settles O20: the operand alone decides between the fault and the jump. -/
theorem jmpRule : Obligations.JmpRule := by
  intro s a
  refine ⟨rfl, ?_, fun t ha => ?_⟩
  · rintro w rfl
    rw [Faults, exec_jmp, jumpTo_invalid]
    rfl
  · rw [exec_jmp, jumpTo_of_denotes ha]
    rfl

end Sys2Proof.Proofs

/-! ## `add`, `mult`, `mod`, `and`, `or` and `not` (44_alu)

Five of the six are the shapes `F3DVV` and `F2DV`, whose cases stand above; `mod` is the shape `F3DVV` wherever its
divisor is not zero. Then the statements from these. -/

namespace Sys2Proof.Machine

open Sys2Proof.Claims

/-- An operand stands for one value only. -/
theorem denotes_unique {s : State} {o : Operand} {v w : Value} (hv : Denotes s o v) (hw : Denotes s o w) : v = w :=
  Except.ok.inj ((resolve_eq_ok_iff.2 hv).symm.trans (resolve_eq_ok_iff.2 hw))

/-! ### The bits of two values (R93, R94) -/

theorem and_eq_ofNat (x y : Value) : x &&& y = BitVec.ofNat 15 (x.toNat &&& y.toNat) := by
  rw [BitVec.ofNat_and, BitVec.ofNat_toNat, BitVec.ofNat_toNat, BitVec.setWidth_eq, BitVec.setWidth_eq]

theorem or_eq_ofNat (x y : Value) : x ||| y = BitVec.ofNat 15 (x.toNat ||| y.toNat) := by
  rw [BitVec.ofNat_or, BitVec.ofNat_toNat, BitVec.ofNat_toNat, BitVec.setWidth_eq, BitVec.setWidth_eq]

/-! ### `mod` (R92) -/

section Mod

variable {s : State} {a b c : Operand} {d : RegIx} {vb : Value}

/-- The remainder that `mod` writes. -/
def remainder (vb vc : Value) : Value := BitVec.ofNat 15 (vb.toNat % vc.toNat)

theorem exec_mod_of_notRegister (ha : NotRegister a) :
    exec (.mod a b c) s = .next (s.raise (.invalidDestination a.toWord)) := by
  rw [exec, execMod, dst_of_notRegister ha, error_bind, commit_error]

theorem exec_mod_reg_invalid (w : Word) :
    exec (.mod (.reg d) (.invalid w) c) s = .next (s.raise (.invalidOperand w)) := rfl

/-- A zero divisor faults wherever the instruction ends: it is tested before the top of memory is. -/
theorem exec_mod_of_zero (hb : Denotes s b vb) (hc : Denotes s c 0) :
    exec (.mod (.reg d) b c) s = .next (s.raise .divisionByZero) := by
  rw [exec, execMod, dst_reg, ok_bind, resolve_eq_ok_iff.2 hb, ok_bind, resolve_eq_ok_iff.2 hc]
  rfl

/-- Where the divisor does not stand for zero, its test passes, and what is left is the shape `F3DVV`. -/
theorem exec_mod_of_not_zero (hc : ¬ Denotes s c 0) :
    exec (.mod a b c) s = s.commit (s.binary remainder a b c) := by
  rw [exec, execMod, State.binary]
  cases hr : s.resolve c with
  | error k => rfl
  | ok vc =>
    have hvc : vc ≠ 0 := by
      rintro rfl
      exact hc (resolve_eq_ok_iff.1 hr)
    have hensure : ensure (decide (vc ≠ 0)) .divisionByZero = .ok () :=
      ensure_eq_ok_iff.2 (decide_eq_true hvc)
    simp only [ok_bind, hensure]
    rfl

end Mod

/-! ### `not` (R95) -/

/-- The 15-bit complement that `not` writes. -/
def complement (v : Value) : Value := BitVec.ofNat 15 (32767 - v.toNat)

theorem exec_not (a b : Operand) (s : State) : exec (.not a b) s = s.commit (s.unary complement a b) := rfl

theorem toNat_complement (v : Value) : (complement v).toNat = 32767 - v.toNat := by
  rw [complement, BitVec.toNat_ofNat]
  omega

/-- R95 (b): the complement is its own inverse. -/
theorem complement_complement (v : Value) : complement (complement v) = v := by
  apply BitVec.eq_of_toNat_eq
  rw [toNat_complement, toNat_complement]
  omega

theorem exec_not_of_le {s : State} {b : Operand} {v : Value} {d : RegIx} (hb : Denotes s b v)
    (hpc : s.pc.toNat + 3 ≤ 32767) : exec (.not (.reg d) b) s =
      .next ((s.setReg d (complement v)).setPc (BitVec.ofNat 15 (s.pc.toNat + 3))) := by
  rw [exec_not, unary_reg_of_le hb hpc, commit_ok]

/-- A register just written holds the value written. -/
theorem regs_setReg_setPc (s : State) (d : RegIx) (v : Value) (p : Addr) :
    ((s.setReg d v).setPc p).regs[d] = v := State.getReg_setReg_same s d v

end Sys2Proof.Machine

namespace Sys2Proof.Proofs

open Sys2Proof.Machine Sys2Proof.Claims

/-- Settles O22: `add` is the shape `F3DVV` with the reduced sum. -/
theorem addRule : Obligations.AddRule :=
  binaryRule_of_exec _ (fun _ _ _ => rfl) (fun _ _ _ _ => rfl) fun _ _ => rfl

/-- Settles O23: `mult` is the shape `F3DVV` with the reduced product. -/
theorem multRule : Obligations.MultRule :=
  binaryRule_of_exec _ (fun _ _ _ => rfl) (fun _ _ _ _ => rfl) fun _ _ => rfl

/-- Settles O24: after the destination and the first value, the divisor decides between its fault and the shape
`F3DVV` with the remainder. -/
theorem modRule : Obligations.ModRule := by
  intro s a b c
  refine ⟨rfl, exec_mod_of_notRegister, ?_, ?_, ?_, ?_, ?_⟩
  · rintro d w rfl rfl
    exact exec_mod_reg_invalid w
  · rintro d vb w rfl hb rfl
    have hc : ¬ Denotes s (.invalid w) 0 := by simp
    rw [Faults, exec_mod_of_not_zero hc, binary_reg_denotes_invalid hb]
    rfl
  · rintro d vb rfl hb hc
    exact exec_mod_of_zero hb hc
  · rintro d vb vc rfl hb hc hvc hpc
    rw [Faults, exec_mod_of_not_zero (fun h => hvc (denotes_unique hc h)), binary_reg_of_gt hb hc hpc]
    rfl
  · rintro d vb vc rfl hb hc hvc hpc
    rw [exec_mod_of_not_zero (fun h => hvc (denotes_unique hc h)), binary_reg_of_le hb hc hpc]
    rfl

/-- Settles O25: each of the two is the shape `F3DVV` with its operation on the bits. -/
theorem andOrRules : Obligations.AndOrRules :=
  ⟨binaryRule_of_exec _ (fun _ _ _ => rfl) (fun _ _ _ _ => rfl) and_eq_ofNat,
    binaryRule_of_exec _ (fun _ _ _ => rfl) (fun _ _ _ _ => rfl) or_eq_ofNat⟩

/-- Settles O26: `not` is the shape `F2DV` with the complement. -/
theorem notRule : Obligations.NotRule :=
  unaryRule_of_exec complement (fun _ _ => rfl) exec_not fun _ => rfl

/-- Settles O53: the second `not` reads what the first wrote, and the complement is its own inverse. -/
theorem notTwiceGivesBack : Obligations.NotTwiceGivesBack := by
  intro s b v d e hb hpc
  have hpc₁ : s.pc.toNat + 3 ≤ 32767 := by omega
  have hpc₂ : (BitVec.ofNat 15 (s.pc.toNat + 3) : Addr).toNat + 3 ≤ 32767 := by
    rw [BitVec.toNat_ofNat]
    omega
  have hread := regs_setReg_setPc s d (complement v) (BitVec.ofNat 15 (s.pc.toNat + 3))
  refine ⟨_, _, exec_not_of_le hb hpc₁, exec_not_of_le (.inr ⟨d, rfl, hread⟩) hpc₂, ?_⟩
  rw [regs_setReg_setPc, complement_complement]

end Sys2Proof.Proofs

/-! ## `rmem` and `wmem` (45_rmem_wmem)

`rmem` is the shape `F2DV` wherever the cell it loads fits a register; `wmem` has its own pseudocode, one lemma for
each case of it. Then the two statements from these. -/

namespace Sys2Proof.Machine

open Sys2Proof.Claims

/-! ### `rmem` (R100) -/

section Rmem

variable {s : State} {a b : Operand} {d : RegIx} {addr : Value}

/-- The value that `rmem` loads from an address. -/
def loaded (s : State) (addr : Value) : Value := trunc15 (s.memRead addr)

theorem loaded_eq_ofNat (s : State) (addr : Value) :
    loaded s addr = BitVec.ofNat 15 (s.mem.read addr.toNat).toNat := (BitVec.ofNat_toNat 15 (s.memRead addr)).symm

theorem exec_rmem_of_notRegister (ha : NotRegister a) :
    exec (.rmem a b) s = .next (s.raise (.invalidDestination a.toWord)) := by
  rw [exec, execRmem, dst_of_notRegister ha, error_bind, commit_error]

theorem exec_rmem_reg_invalid (w : Word) :
    exec (.rmem (.reg d) (.invalid w)) s = .next (s.raise (.invalidOperand w)) := rfl

/-- 92_eei_decisions D8: a cell above 32767 faults wherever the instruction ends, for it is tested before the top of
memory is. -/
theorem exec_rmem_of_wide (hb : Denotes s b addr) (hwide : 32767 < (s.memRead addr).toNat) :
    exec (.rmem (.reg d) b) s = .next (s.raise (.valueOutOfRange addr (s.memRead addr))) := by
  have hensure : ensure (decide ((s.memRead addr).toNat ≤ Config.maxValue))
      (.valueOutOfRange addr (s.memRead addr)) = .error (.valueOutOfRange addr (s.memRead addr)) :=
    ensure_eq_error_iff.2 ⟨decide_eq_false (Nat.not_le.2 hwide), rfl⟩
  rw [exec, execRmem, dst_reg, ok_bind, resolve_eq_ok_iff.2 hb, ok_bind, hensure, error_bind, commit_error]

/-- Where the cell fits a register, its test passes, and what is left is the shape `F2DV`. -/
theorem exec_rmem_of_fits (hb : Denotes s b addr) (hfits : (s.memRead addr).toNat ≤ 32767) :
    exec (.rmem (.reg d) b) s = s.commit (s.unary (loaded s) (.reg d) b) := by
  have hensure : ensure (decide ((s.memRead addr).toNat ≤ Config.maxValue))
      (.valueOutOfRange addr (s.memRead addr)) = .ok () := ensure_eq_ok_iff.2 (decide_eq_true hfits)
  simp only [exec, execRmem, State.unary, dst_reg, resolve_eq_ok_iff.2 hb, hensure, ok_bind]
  rfl

end Rmem

/-! ### `wmem` (R101) -/

section Wmem

variable {s : State} {a b : Operand} {addr v : Value}

/-- The pseudocode of `wmem`. -/
theorem exec_wmem (a b : Operand) (s : State) :
    exec (.wmem a b) s = s.commit (s.resolve a >>= fun addr => s.resolve b >>= fun v =>
      s.checkedNpc 2 >>= fun npc => .ok ((s.memWrite addr v).setPc npc)) := rfl

theorem exec_wmem_invalid (w : Word) : exec (.wmem (.invalid w) b) s = .next (s.raise (.invalidOperand w)) := rfl

theorem exec_wmem_denotes_invalid (ha : Denotes s a addr) (w : Word) :
    exec (.wmem a (.invalid w)) s = .next (s.raise (.invalidOperand w)) := by
  rw [exec_wmem, resolve_eq_ok_iff.2 ha, ok_bind, resolve_invalid, error_bind, commit_error]

/-- With valid operands, the check for the top of memory decides. -/
theorem exec_wmem_of_denotes (ha : Denotes s a addr) (hb : Denotes s b v) :
    exec (.wmem a b) s =
      s.commit (s.checkedNpc 2 >>= fun npc => .ok ((s.memWrite addr v).setPc npc)) := by
  rw [exec_wmem, resolve_eq_ok_iff.2 ha, ok_bind, resolve_eq_ok_iff.2 hb, ok_bind]

theorem exec_wmem_of_gt (ha : Denotes s a addr) (hb : Denotes s b v) (hpc : 32767 < s.pc.toNat + 3) :
    exec (.wmem a b) s = .next (s.raise (.addressOutOfRange (s.pc.toNat + 3))) := by
  have hn : s.checkedNpc 2 = .error (.addressOutOfRange (s.pc.toNat + 3)) := checkedNpc_of_gt hpc
  rw [exec_wmem_of_denotes ha hb, hn, error_bind, commit_error]

theorem exec_wmem_of_le (ha : Denotes s a addr) (hb : Denotes s b v) (hpc : s.pc.toNat + 3 ≤ 32767) :
    exec (.wmem a b) s = .next ((s.memWrite addr v).setPc (BitVec.ofNat 15 (s.pc.toNat + 3))) := by
  have hn : s.checkedNpc 2 = .ok (BitVec.ofNat 15 (s.pc.toNat + 3)) := checkedNpc_of_le hpc
  rw [exec_wmem_of_denotes ha hb, hn, ok_bind, commit_ok]

end Wmem

end Sys2Proof.Machine

namespace Sys2Proof.Proofs

open Sys2Proof.Machine Sys2Proof.Claims

/-- Settles O27: after the two operands, the cell decides between its fault and the shape `F2DV` with the loaded
value. -/
theorem rmemRule : Obligations.RmemRule := by
  intro s a b
  refine ⟨rfl, exec_rmem_of_notRegister, ?_, ?_, ?_, ?_⟩
  · rintro d w rfl rfl
    exact exec_rmem_reg_invalid w
  · rintro d addr rfl hb hwide
    exact exec_rmem_of_wide hb hwide
  · rintro d addr rfl hb hfits hpc
    rw [Faults, exec_rmem_of_fits hb hfits, unary_reg_of_gt hb hpc]
    rfl
  · rintro d addr rfl hb hfits hpc
    rw [exec_rmem_of_fits hb hfits, unary_reg_of_le hb hpc, loaded_eq_ofNat]
    rfl

/-- Settles O28: the memory of a `wmem` that completes is the written one, and the rule of a memory write says what it
reads. -/
theorem wmemRule : Obligations.WmemRule := by
  intro s a b hm
  refine ⟨rfl, ?_, ?_, fun _ _ => exec_wmem_of_gt, fun addr v ha hb hpc => ?_⟩
  · rintro w rfl
    exact exec_wmem_invalid w
  · rintro addr w ha rfl
    exact exec_wmem_denotes_invalid ha w
  · refine ⟨(s.memWrite addr v).mem, exec_wmem_of_le ha hb hpc, ?_, fun x hx => ?_⟩
    · rw [State.memWrite_mem, Memory.read_write_same _ hm, toNat_zext16]
    · exact Memory.read_write_other s.mem _ hx

end Sys2Proof.Proofs

/-! ## `call` and `ret` (46_call_ret)

What each of the two answers in each case of its pseudocode, in the order of the checks, and the statements from
these. A `call` is checked as a `push` is; what it pushes is the address after it. -/

namespace Sys2Proof.Machine

open Sys2Proof.Claims

/-! ### `call` (R105) -/

section Call

variable {s : State} {a : Operand} {t : Addr}

/-- The pseudocode of `call`. -/
theorem exec_call (a : Operand) (s : State) :
    exec (.call a) s = s.commit (s.resolve a >>= fun t => s.checkedNpc 1 >>= fun npc =>
      s.checkedPush npc >>= fun u => .ok (u.setPc t)) := rfl

theorem exec_call_invalid (w : Word) (s : State) :
    exec (.call (.invalid w)) s = .next (s.raise (.invalidOperand w)) := rfl

/-- 92_eei_decisions D4: a return address of 32768 faults, whatever room the stack has. -/
theorem exec_call_of_gt (ha : Denotes s a t) (hpc : 32767 < s.pc.toNat + 2) :
    exec (.call a) s = .next (s.raise (.addressOutOfRange (s.pc.toNat + 2))) := by
  have hn : s.checkedNpc 1 = .error (.addressOutOfRange (s.pc.toNat + 2)) := checkedNpc_of_gt hpc
  rw [exec_call, resolve_eq_ok_iff.2 ha, ok_bind, hn, error_bind, commit_error]

/-- Where the return address is an address, the capacity check of its push decides. -/
theorem exec_call_of_le (ha : Denotes s a t) (hpc : s.pc.toNat + 2 ≤ 32767) :
    exec (.call a) s = s.commit (s.checkedPush (BitVec.ofNat 15 (s.pc.toNat + 2)) >>= fun u =>
      .ok (u.setPc t)) := by
  have hn : s.checkedNpc 1 = .ok (BitVec.ofNat 15 (s.pc.toNat + 2)) := checkedNpc_of_le hpc
  rw [exec_call, resolve_eq_ok_iff.2 ha, ok_bind, hn, ok_bind]

theorem exec_call_of_full (ha : Denotes s a t) (hpc : s.pc.toNat + 2 ≤ 32767)
    (hfull : s.cfg.stackDepth = some s.stack.length) :
    exec (.call a) s = .next (s.raise .stackOverflow) := by
  rw [exec_call_of_le ha hpc, checkedPush_of_full hfull, error_bind, commit_error]

theorem exec_call_of_room (ha : Denotes s a t) (hpc : s.pc.toNat + 2 ≤ 32767) (hroom : StackHasRoom s) :
    exec (.call a) s = .next ((s.pushValue (BitVec.ofNat 15 (s.pc.toNat + 2))).setPc t) := by
  rw [exec_call_of_le ha hpc, checkedPush_of_room hroom, ok_bind, commit_ok]

end Call

/-- A `call` that completes leaves the address after it on top of the stack. -/
theorem stack_of_call {s t : State} {a : Operand} (h : exec (.call a) s = .next t) (hrun : t.run = .running) :
    t.stack = BitVec.ofNat 15 (s.pc.toNat + 2) :: s.stack := by
  obtain ⟨p, npc, -, hnpc, -, rfl⟩ := effect_of_exec_running h hrun
  obtain ⟨-, rfl⟩ := checkedNpc_eq_ok_iff.1 hnpc
  rfl

/-! ### `ret` (R106) -/

theorem exec_ret_of_cons {s : State} {t : Addr} {rest : List Value} (hs : s.stack = t :: rest) :
    exec .ret s = .next ({ s with stack := rest }.setPc t) := by
  simp only [exec, execRet, hs]

/-- On an empty stack `ret` ends the run as `halt` does. -/
theorem exec_ret_of_nil {s : State} (hs : s.stack = []) : exec .ret s = exec .halt s := by
  simp only [exec, execRet, execHalt, hs]

end Sys2Proof.Machine

namespace Sys2Proof.Proofs

open Sys2Proof.Machine Sys2Proof.Claims

/-- Settles O29, a case of the pseudocode for each clause. -/
theorem callRule : Obligations.CallRule := by
  intro s a
  refine ⟨rfl, ?_, fun _ => exec_call_of_gt, fun _ => exec_call_of_full, fun _ => exec_call_of_room⟩
  rintro w rfl
  exact exec_call_invalid w s

/-- Settles O51: the address after the `call` is on top of the stack that the `ret` finds. -/
theorem callThenRetReturns : Obligations.CallThenRetReturns := by
  intro s t u a _ hcall hrun hstack
  exact exec_ret_of_cons (hstack.trans (stack_of_call hcall hrun))

/-- Settles O30: the stack decides between the jump to its top and what `halt` does. -/
theorem retRule : Obligations.RetRule := by
  refine ⟨rfl, fun s => ⟨fun t rest hs => exec_ret_of_cons hs, fun hs => ?_⟩⟩
  obtain ⟨-, hhalt⟩ := haltRule
  rw [exec_ret_of_nil hs, hhalt]

end Sys2Proof.Proofs

/-! ## `out` and `in` (47_out_in)

What each of the two answers in each case of its pseudocode, in the order of the checks, and the statements from
these. What `in` answers rests on the reply of the host; a core that waits is one whose host has none to give. -/

namespace Sys2Proof.Machine

open Sys2Proof.Claims

/-! ### The address after an instruction of one operand word (10_state R15) -/

theorem checkedNpc_one_of_gt {s : State} (hpc : 32767 < s.pc.toNat + 2) :
    s.checkedNpc 1 = .error (.addressOutOfRange (s.pc.toNat + 2)) := checkedNpc_of_gt hpc

theorem checkedNpc_one_of_le {s : State} (hpc : s.pc.toNat + 2 ≤ 32767) :
    s.checkedNpc 1 = .ok (BitVec.ofNat 15 (s.pc.toNat + 2)) := checkedNpc_of_le hpc

/-! ### `out` (R110) -/

section Out

variable {s : State} {a : Operand} {v : Value}

/-- The pseudocode of `out`. -/
theorem exec_out (a : Operand) (s : State) :
    exec (.out a) s = s.commit (s.resolve a >>= fun v => s.checkedNpc 1 >>= fun npc =>
      s.outChar v >>= fun t => .ok (t.setPc npc)) := rfl

theorem exec_out_invalid (w : Word) (s : State) :
    exec (.out (.invalid w)) s = .next (s.raise (.invalidOperand w)) := rfl

theorem exec_out_of_gt (ha : Denotes s a v) (hpc : 32767 < s.pc.toNat + 2) :
    exec (.out a) s = .next (s.raise (.addressOutOfRange (s.pc.toNat + 2))) := by
  rw [exec_out, resolve_eq_ok_iff.2 ha, ok_bind, checkedNpc_one_of_gt hpc, error_bind, commit_error]

/-- Where the instruction does not end at the top of memory, the output stream decides. -/
theorem exec_out_of_le (ha : Denotes s a v) (hpc : s.pc.toNat + 2 ≤ 32767) :
    exec (.out a) s = s.commit (s.outChar v >>= fun t =>
      .ok (t.setPc (BitVec.ofNat 15 (s.pc.toNat + 2)))) := by
  rw [exec_out, resolve_eq_ok_iff.2 ha, ok_bind, checkedNpc_one_of_le hpc, ok_bind]

/-- R116: a stream that takes no more is a fault. -/
theorem exec_out_of_noRoom (ha : Denotes s a v) (hpc : s.pc.toNat + 2 ≤ 32767) (hroom : s.outputRoom = some 0) :
    exec (.out a) s = .next (s.raise .environmentFailure) := by
  rw [exec_out_of_le ha hpc, outChar_eq_error_iff.2 ⟨hroom, rfl⟩, error_bind, commit_error]

/-- R112: the character goes to the end of the output. -/
theorem exec_out_of_room (ha : Denotes s a v) (hpc : s.pc.toNat + 2 ≤ 32767) (hroom : s.outputRoom ≠ some 0) :
    exec (.out a) s = .next (State.setPc { s with
      output := s.output ++ [v]
      outputRoom := s.outputRoom.map (fun room => room - 1) } (BitVec.ofNat 15 (s.pc.toNat + 2))) := by
  rw [exec_out_of_le ha hpc, outChar_eq_ok_iff.2 ⟨hroom, rfl⟩, ok_bind, commit_ok]

end Out

/-! ### The reply to a request for a character (R111, R113, R114, R116) -/

section NextChar

variable {s : State}

theorem nextChar_of_buffered {ch : Value} {rest : List Value} (hb : s.inbuf = ch :: rest) :
    s.nextChar = .char ch rest s.input := by
  simp only [State.nextChar, hb]

theorem nextChar_of_line {line : Line} {lines : List Line} (hb : s.inbuf = []) (hi : s.input = line :: lines) :
    s.nextChar = .char line.first line.rest lines := by
  simp only [State.nextChar, hb, hi]

theorem nextChar_of_silent (hb : s.inbuf = []) (hi : s.input = []) (he : s.inputEnd = .silent) :
    s.nextChar = .wait := by
  simp only [State.nextChar, hb, hi, he]

theorem nextChar_of_fails (hb : s.inbuf = []) (hi : s.input = []) (he : s.inputEnd = .fails) :
    s.nextChar = .failure := by
  simp only [State.nextChar, hb, hi, he]

end NextChar

/-! ### `in` (R111): with `exec_in_of_char`, a lemma for each reply -/

section In

variable {s : State} {d : RegIx}

theorem exec_in_of_notRegister {a : Operand} (ha : NotRegister a) (s : State) :
    exec (.in_ a) s = .next (s.raise (.invalidDestination a.toWord)) := by
  rw [exec, execIn, dst_of_notRegister ha, error_bind, commit_error]

/-- 92_eei_decisions D26: at the top of memory no input is asked for. -/
theorem exec_in_of_gt (hpc : 32767 < s.pc.toNat + 2) :
    exec (.in_ (.reg d)) s = .next (s.raise (.addressOutOfRange (s.pc.toNat + 2))) := by
  rw [exec, execIn, dst_reg, ok_bind, checkedNpc_one_of_gt hpc, error_bind, commit_error]

/-- R114: while no line comes, the state stays as it is. -/
theorem exec_in_of_wait (hpc : s.pc.toNat + 2 ≤ 32767) (hc : s.nextChar = .wait) :
    exec (.in_ (.reg d)) s = .next s := by
  simp only [exec, execIn, dst_reg, ok_bind, checkedNpc_one_of_le hpc, hc, pure_eq_ok, commit_ok]

/-- R116: a failure that the host reports is a fault. -/
theorem exec_in_of_failure (hpc : s.pc.toNat + 2 ≤ 32767) (hc : s.nextChar = .failure) :
    exec (.in_ (.reg d)) s = .next (s.raise .environmentFailure) := by
  simp only [exec, execIn, dst_reg, ok_bind, checkedNpc_one_of_le hpc, hc, commit_error]

end In

/-! ### A core that waits (R114) -/

/-- The words in memory depend on memory alone. -/
theorem wordsAt_congr {s t : State} (hmem : t.mem = s.mem) (a n : Nat) : t.wordsAt a n = s.wordsAt a n := by
  induction n generalizing a with
  | zero => rfl
  | succ n ih => rw [State.wordsAt, State.wordsAt, hmem, ih]

/-- The fetch depends on memory and `pc` alone. -/
theorem fetch_congr {s t : State} (hmem : t.mem = s.mem) (hpc : t.pc = s.pc) : t.fetch = s.fetch := by
  simp only [State.fetch, State.memRead, wordsAt_congr hmem, hmem, hpc]

@[simp] theorem fetch_supplyLine (s : State) (line : Line) : (s.supplyLine line).fetch = s.fetch :=
  fetch_congr rfl rfl

/-- A core waits exactly when it is Running at an `in` that passes its checks and the host neither has a line nor
fails. -/
theorem waiting_eq_true_iff {s : State} :
    s.waiting = true ↔ s.run = .running ∧ ∃ d : RegIx, s.fetch = .ok (.in_ (.reg d)) ∧
      s.pc.toNat + 2 ≤ 32767 ∧ s.inbuf = [] ∧ s.input = [] ∧ s.inputEnd = .silent := by
  unfold State.waiting
  split
  · rename_i d hrun hfetch
    have hnpc : s.npc 1 ≤ Config.maxAddr ↔ s.pc.toNat + 2 ≤ 32767 := Iff.rfl
    simp [hrun, hfetch, hnpc, and_assoc]
  · rename_i hother
    simp only [Bool.false_eq_true, false_iff]
    rintro ⟨hrun, d, hfetch, -⟩
    exact hother d hrun hfetch

end Sys2Proof.Machine

namespace Sys2Proof.Proofs

open Sys2Proof.Machine Sys2Proof.Claims

/-- Settles O31, a case of the pseudocode for each clause. -/
theorem outRule : Obligations.OutRule := by
  intro s a
  refine ⟨rfl, ?_, fun _ => exec_out_of_gt, fun _ => exec_out_of_noRoom, fun _ => exec_out_of_room⟩
  rintro w rfl
  exact exec_out_invalid w s

/-- Settles O32: after the two checks, the buffer and then the host decide the reply. -/
theorem inRule : Obligations.InRule := by
  intro s a
  refine ⟨rfl, fun ha => exec_in_of_notRegister ha s, ?_, ?_, ?_, ?_, ?_⟩
  · rintro d rfl hpc
    exact exec_in_of_gt hpc
  · rintro d ch rest rfl hpc hb
    exact exec_in_of_char hpc (nextChar_of_buffered hb)
  · rintro d line lines rfl hpc hb hi
    exact exec_in_of_char hpc (nextChar_of_line hb hi)
  · rintro d rfl hpc hb hi he
    exact exec_in_of_wait hpc (nextChar_of_silent hb hi he)
  · rintro d rfl hpc hb hi he
    exact exec_in_of_failure hpc (nextChar_of_fails hb hi he)

/-- Settles O55: the step of a waiting core answers the state itself; a line supplied leaves the fetch as it was and
is the next the `in` asks for, and taking it leaves the host with no line again. -/
theorem waitingEndsWithALine : Obligations.WaitingEndsWithALine := by
  intro s hwaiting
  obtain ⟨hrun, d, hfetch, hpc, hb, hi, he⟩ := waiting_eq_true_iff.1 hwaiting
  have hstep : step s = .next s :=
    (step_running hrun hfetch).trans (exec_in_of_wait hpc (nextChar_of_silent hb hi he))
  refine ⟨fun k => ⟨runFor_fixed hstep k, hrun⟩, d, hfetch, fun line => ?_⟩
  have hline : (s.supplyLine line).nextChar = .char line.first line.rest s.input :=
    nextChar_of_line hb (by rw [State.supplyLine_input, hi, List.nil_append])
  rw [step_running (s := s.supplyLine line) hrun ((fetch_supplyLine s line).trans hfetch),
    exec_in_of_char (s := s.supplyLine line) hpc hline]
  rfl

end Sys2Proof.Proofs

/-! ## Faults (60_exceptions)

What a fault of each kind says of the instruction that raised it, said once; which step raises it; and that no step
reads the debug configuration. Then the statements of 60_exceptions from these. -/

namespace Sys2Proof.Machine

open Sys2Proof.Claims

/-! ### What raises each kind of fault -/

/-- Why an instruction raises a fault, by the kind of the fault: a row of the matrix of 60_exceptions R144 with
what the rule of that kind says of the state. -/
inductive Cause (s : State) (i : Instr) : Fault → Prop where
  /-- R123: the destination operand names no register. -/
  | destination (a : Operand) (hi : destinationOperand i = some a) (ha : NotRegister a) :
      Cause s i (.invalidDestination a.toWord)
  /-- R122: a value operand is invalid. -/
  | operand (w : Word) (hi : .invalid w ∈ valueOperands i) : Cause s i (.invalidOperand w)
  /-- R124: no address follows the instruction, which is not one that needs none. -/
  | top (n : Nat) (hi : i ≠ .halt ∧ i ≠ .ret ∧ ∀ a, i ≠ .jmp a) : Cause s i (.addressOutOfRange n)
  /-- R125: a `pop` from an empty stack. -/
  | underflow (a : Operand) (hi : i = .pop a) (hs : s.stack = []) : Cause s i .stackUnderflow
  /-- R126: a `mod` by zero. -/
  | zeroDivisor (a b c : Operand) (hi : i = .mod a b c) (hc : Denotes s c 0) : Cause s i .divisionByZero
  /-- R127: an `rmem` of a wide cell. -/
  | wideCell (a b : Operand) (addr : Addr) (hi : i = .rmem a b) :
      Cause s i (.valueOutOfRange addr (s.memRead addr))
  /-- R129: a `push` or `call` on a full stack. -/
  | overflow (hi : (∃ a, i = .push a) ∨ ∃ a, i = .call a) (hs : s.stackFull = true) : Cause s i .stackOverflow
  /-- R128: the host fails an `out` or an `in`. -/
  | host (hi : (∃ a, i = .out a) ∨ ∃ a, i = .in_ a) : Cause s i .environmentFailure

section Cause

variable {s : State} {i : Instr} {k : Fault}

theorem Cause.of_dst {a : Operand} (hi : destinationOperand i = some a) (h : dst a = .error k) : Cause s i k := by
  obtain ⟨ha, rfl⟩ := dst_eq_error_iff.1 h
  exact .destination a hi ha

theorem Cause.of_resolve {o : Operand} (hi : o ∈ valueOperands i) (h : s.resolve o = .error k) : Cause s i k := by
  obtain ⟨w, rfl, rfl⟩ := resolve_eq_error_iff.1 h
  exact .operand w hi

theorem Cause.of_checkedNpc {n : Nat} (hi : i ≠ .halt ∧ i ≠ .ret ∧ ∀ a, i ≠ .jmp a)
    (h : s.checkedNpc n = .error k) : Cause s i k := by
  obtain ⟨-, rfl⟩ := checkedNpc_eq_error_iff.1 h
  exact .top _ hi

/-- Every check of every instruction raises a fault for the cause that its kind names. -/
theorem Raises.cause (h : Raises s k i) : Cause s i k := by
  cases i with
  | halt | ret => exact h.elim
  | noop => exact .of_checkedNpc ⟨nofun, nofun, nofun⟩ h
  | jmp a => exact .of_resolve (.head _) h
  | set a b | not a b =>
    rcases h with h | h | h
    · exact .of_dst rfl h
    · exact .of_resolve (.head _) h
    · exact .of_checkedNpc ⟨nofun, nofun, nofun⟩ h
  | jt a b | jf a b | wmem a b =>
    rcases h with h | h | h
    · exact .of_resolve (.head _) h
    · exact .of_resolve (.tail _ (.head _)) h
    · exact .of_checkedNpc ⟨nofun, nofun, nofun⟩ h
  | eq a b c | gt a b c | add a b c | mult a b c | and a b c | or a b c =>
    rcases h with h | h | h | h
    · exact .of_dst rfl h
    · exact .of_resolve (.head _) h
    · exact .of_resolve (.tail _ (.head _)) h
    · exact .of_checkedNpc ⟨nofun, nofun, nofun⟩ h
  | mod a b c =>
    rcases h with h | h | h | ⟨hc, rfl⟩ | h
    · exact .of_dst rfl h
    · exact .of_resolve (.head _) h
    · exact .of_resolve (.tail _ (.head _)) h
    · exact .zeroDivisor a b c rfl (resolve_eq_ok_iff.1 hc)
    · exact .of_checkedNpc ⟨nofun, nofun, nofun⟩ h
  | rmem a b =>
    rcases h with h | h | ⟨addr, -, rfl⟩ | h
    · exact .of_dst rfl h
    · exact .of_resolve (.head _) h
    · exact .wideCell a b addr rfl
    · exact .of_checkedNpc ⟨nofun, nofun, nofun⟩ h
  | push a =>
    rcases h with h | h | ⟨hs, rfl⟩
    · exact .of_resolve (.head _) h
    · exact .of_checkedNpc ⟨nofun, nofun, nofun⟩ h
    · exact .overflow (.inl ⟨a, rfl⟩) hs
  | call a =>
    rcases h with h | h | ⟨hs, rfl⟩
    · exact .of_resolve (.head _) h
    · exact .of_checkedNpc ⟨nofun, nofun, nofun⟩ h
    · exact .overflow (.inr ⟨a, rfl⟩) hs
  | pop a =>
    rcases h with h | ⟨hs, rfl⟩ | h
    · exact .of_dst rfl h
    · exact .underflow a rfl hs
    · exact .of_checkedNpc ⟨nofun, nofun, nofun⟩ h
  | out a =>
    rcases h with h | h | ⟨-, rfl⟩
    · exact .of_resolve (.head _) h
    · exact .of_checkedNpc ⟨nofun, nofun, nofun⟩ h
    · exact .host (.inl ⟨a, rfl⟩)
  | in_ a =>
    rcases h with h | h | ⟨-, rfl⟩
    · exact .of_dst rfl h
    · exact .of_checkedNpc ⟨nofun, nofun, nofun⟩ h
    · exact .host (.inr ⟨a, rfl⟩)

/-- The cause of a fault lies in the row of the matrix (R144). -/
theorem Cause.canRaise_eq_true (h : Cause s i k) : canRaise i k = true := by
  cases h with
  | destination a hi ha => simp [canRaise, hi]
  | operand w hi => simp [canRaise, List.ne_nil_of_mem hi]
  | top n hi =>
    obtain ⟨hhalt, hret, hjmp⟩ := hi
    cases i with
    | halt => exact absurd rfl hhalt
    | ret => exact absurd rfl hret
    | jmp a => exact absurd rfl (hjmp a)
    | _ => rfl
  | underflow a hi hs => rw [hi]; rfl
  | zeroDivisor a b c hi hc => rw [hi]; rfl
  | wideCell a b addr hi => rw [hi]; rfl
  | overflow hi hs => rcases hi with ⟨a, rfl⟩ | ⟨a, rfl⟩ <;> rfl
  | host hi => rcases hi with ⟨a, rfl⟩ | ⟨a, rfl⟩ <;> rfl

end Cause

/-- R133: a destination operand that names no register faults before anything else is looked at. -/
theorem exec_of_notRegister {i : Instr} {a : Operand} (hi : destinationOperand i = some a) (ha : NotRegister a)
    (s : State) : exec i s = .next (s.raise (.invalidDestination a.toWord)) := by
  cases i with
  | set x b | not x b => cases hi; exact congrArg s.commit (unary_of_notRegister ha)
  | eq x b c | gt x b c | add x b c | mult x b c | and x b c | or x b c =>
    cases hi; exact congrArg s.commit (binary_of_notRegister ha)
  | mod x b c => cases hi; exact exec_mod_of_notRegister ha
  | rmem x b => cases hi; exact exec_rmem_of_notRegister ha
  | pop x => cases hi; exact exec_pop_of_notRegister ha s
  | in_ x => cases hi; exact exec_in_of_notRegister ha s
  | _ => cases hi

/-! ### Fault entry (R132) -/

section FaultEntry

variable {s t : State} {i : Instr} {k : Fault}

theorem Effect.not_faulted (h : Effect s t i) (hrun : s.run = .running) : t.run ≠ .faulted k := by
  rcases h.run with hr | hr <;> rw [hr]
  · rw [hrun]; nofun
  · nofun

/-- An instruction that ends Faulted raised that fault, for the cause its kind names. -/
theorem cause_of_exec_faulted (hrun : s.run = .running) (h : exec i s = .next t) (hk : t.run = .faulted k) :
    Cause s i k := by
  rcases exec_cases h with ⟨j, hj, rfl⟩ | he
  · obtain rfl : j = k := RunState.faulted.inj hk
    exact hj.cause
  · exact absurd hk (he.not_faulted hrun)

/-- A step that ends Faulted is fault entry, for a fault of the fetch or of the instruction fetched. -/
theorem step_faulted (hrun : s.run = .running) (h : step s = .next t) (hk : t.run = .faulted k) :
    t = s.raise k ∧ (s.fetch = .error k ∨ ∃ i, s.fetch = .ok i ∧ Raises s k i) := by
  rcases step_cases h with ⟨hstop, -⟩ | ⟨-, j, rfl, hj⟩ | ⟨-, i, -, he⟩
  · exact absurd hrun hstop
  · obtain rfl : j = k := RunState.faulted.inj hk
    exact ⟨rfl, hj⟩
  · exact absurd hk (he.not_faulted hrun)

end FaultEntry

/-! ### The fault of the opcode word (R121) -/

theorem length_wordsAt (s : State) (a n : Nat) : (s.wordsAt a n).length = n := by
  induction n generalizing a with
  | zero => rfl
  | succ n ih => rw [State.wordsAt, List.length_cons, ih]

theorem fetch_of_noEntry {s : State} (hn : nargs? (s.memRead s.pc) = none) :
    s.fetch = .error (.illegalOpcode (s.memRead s.pc)) := by
  rw [State.fetch, hn]

/-- An opcode word of the table is fetched with its operand words, where they lie in memory. -/
theorem fetch_of_entry {s : State} {n : Nat} (hn : nargs? (s.memRead s.pc) = some n)
    (hle : s.pc.toNat + n ≤ 32767) : ∃ i, s.fetch = .ok i := by
  obtain ⟨i, hi, -⟩ := decode_of_entry hn (length_wordsAt s (s.pc.toNat + 1) n).ge
  have hdecode : decode (s.wordsAt s.pc.toNat (n + 1)) = .ok (i, _) := hi
  refine ⟨i, ?_⟩
  rw [State.fetch, hn]
  simp only [if_neg (Nat.not_lt.2 hle), hdecode]

/-- R121: the fetch raises `IllegalOpcode` exactly for a word at `pc` above 21. -/
theorem fetch_eq_illegalOpcode_iff {s : State} {w : Word} :
    s.fetch = .error (.illegalOpcode w) ↔ w = s.memRead s.pc ∧ 21 < w.toNat := by
  constructor
  · intro h
    cases hn : nargs? (s.memRead s.pc) with
    | none =>
      rw [fetch_of_noEntry hn] at h
      cases h
      exact ⟨rfl, (nargs?_eq_none_iff _).1 hn⟩
    | some n =>
      rcases Nat.lt_or_ge 32767 (s.pc.toNat + n) with hgt | hle
      · rw [fetch_of_beyondTop hn hgt] at h; cases h
      · obtain ⟨i, hi⟩ := fetch_of_entry hn hle
        rw [hi] at h; cases h
  · rintro ⟨rfl, hw⟩
    exact fetch_of_noEntry ((nargs?_eq_none_iff _).2 hw)

/-! ### The debug configuration (R141) -/

/-- The state with another debug configuration. -/
def State.withTrace (s : State) (c : TraceConfig) : State := { s with cfg := { s.cfg with trace := c } }

section Trace

variable {s : State} {c : TraceConfig}

/-- A check that does not depend on the configuration, then pseudocode that carries it along. -/
theorem bind_withTrace {α : Type} {x : Except Fault α} {f g : α → Except Fault State}
    (h : ∀ a, g a = (f a).map (·.withTrace c)) : x >>= g = (x >>= f).map (·.withTrace c) := by
  cases x with
  | ok a => exact h a
  | error k => rfl

/-- A part of the pseudocode that changes the state and carries the configuration along, then the rest. -/
theorem andThen_withTrace {x y : Except Fault State} {f g : State → Except Fault State}
    (hxy : y = x.map (·.withTrace c)) (h : ∀ t, g (t.withTrace c) = (f t).map (·.withTrace c)) :
    y >>= g = (x >>= f).map (·.withTrace c) := by
  subst hxy
  cases x with
  | ok t => exact h t
  | error k => rfl

/-- Committed, such pseudocode answers the same next state, with the configuration. -/
theorem commit_withTrace {x y : Except Fault State} (hxy : y = x.map (·.withTrace c)) {t : State}
    (h : s.commit x = .next t) : (s.withTrace c).commit y = .next (t.withTrace c) := by
  subst hxy
  cases x with
  | ok u => cases h; rfl
  | error k => cases h; rfl

theorem unary_withTrace (f : Value → Value) (a b : Operand) :
    (s.withTrace c).unary f a b = (s.unary f a b).map (·.withTrace c) :=
  bind_withTrace fun _ => bind_withTrace fun _ => bind_withTrace fun _ => rfl

theorem binary_withTrace (f : Value → Value → Value) (a b d : Operand) :
    (s.withTrace c).binary f a b d = (s.binary f a b d).map (·.withTrace c) :=
  bind_withTrace fun _ => bind_withTrace fun _ => bind_withTrace fun _ => bind_withTrace fun _ => rfl

theorem jumpTo_withTrace (a : Operand) : (s.withTrace c).jumpTo a = (s.jumpTo a).map (·.withTrace c) :=
  bind_withTrace fun _ => rfl

theorem jumpIf_withTrace (f : Value → Bool) (a b : Operand) :
    (s.withTrace c).jumpIf f a b = (s.jumpIf f a b).map (·.withTrace c) := by
  refine bind_withTrace fun v => ?_
  cases f v with
  | true => exact jumpTo_withTrace b
  | false => exact bind_withTrace fun _ => rfl

theorem checkedPush_withTrace (v : Value) :
    (s.withTrace c).checkedPush v = (s.checkedPush v).map (·.withTrace c) := by
  have hfull : (s.withTrace c).stackFull = s.stackFull := rfl
  rw [State.checkedPush, State.checkedPush, hfull]
  cases s.stackFull <;> rfl

theorem outChar_withTrace (v : Value) : (s.withTrace c).outChar v = (s.outChar v).map (·.withTrace c) := by
  have hroom : (s.withTrace c).outputRoom = s.outputRoom := rfl
  rw [State.outChar, State.outChar, hroom]
  rcases s.outputRoom with _ | _ | room <;> rfl

/-- The effect of an instruction does not depend on the debug configuration. -/
theorem exec_withTrace {i : Instr} {t : State} (h : exec i s = .next t) :
    exec i (s.withTrace c) = .next (t.withTrace c) := by
  cases i with
  | halt => cases h; rfl
  | set a b | not a b => exact commit_withTrace (unary_withTrace _ a b) h
  | eq a b d | gt a b d | add a b d | mult a b d | and a b d | or a b d =>
    exact commit_withTrace (binary_withTrace _ a b d) h
  | mod a b d =>
    exact commit_withTrace (bind_withTrace fun _ => bind_withTrace fun _ => bind_withTrace fun _ =>
      bind_withTrace fun _ => bind_withTrace fun _ => rfl) h
  | rmem a b =>
    exact commit_withTrace (bind_withTrace fun _ => bind_withTrace fun _ => bind_withTrace fun _ =>
      bind_withTrace fun _ => rfl) h
  | jmp a => exact commit_withTrace (jumpTo_withTrace a) h
  | jt a b | jf a b => exact commit_withTrace (jumpIf_withTrace _ a b) h
  | noop => exact commit_withTrace (bind_withTrace fun _ => rfl) h
  | wmem a b =>
    exact commit_withTrace (bind_withTrace fun _ => bind_withTrace fun _ => bind_withTrace fun _ => rfl) h
  | push a =>
    exact commit_withTrace (bind_withTrace fun v => bind_withTrace fun _ =>
      andThen_withTrace (checkedPush_withTrace v) fun _ => rfl) h
  | call a =>
    exact commit_withTrace (bind_withTrace fun _ => bind_withTrace fun npc =>
      andThen_withTrace (checkedPush_withTrace npc) fun _ => rfl) h
  | out a =>
    exact commit_withTrace (bind_withTrace fun v => bind_withTrace fun _ =>
      andThen_withTrace (outChar_withTrace v) fun _ => rfl) h
  | pop a =>
    refine commit_withTrace (bind_withTrace fun _ => ?_) h
    have hstack : (s.withTrace c).stack = s.stack := rfl
    rw [hstack]
    cases s.stack with
    | nil => rfl
    | cons v rest => exact bind_withTrace fun _ => rfl
  | in_ a =>
    refine commit_withTrace (bind_withTrace fun _ => bind_withTrace fun _ => ?_) h
    have hnext : (s.withTrace c).nextChar = s.nextChar := rfl
    rw [hnext]
    cases s.nextChar <;> rfl
  | ret =>
    cases hs : s.stack with
    | nil =>
      rw [exec_ret_of_nil hs] at h
      rw [exec_ret_of_nil (s := s.withTrace c) hs]
      cases h; rfl
    | cons p rest =>
      rw [exec_ret_of_cons hs] at h
      rw [exec_ret_of_cons (s := s.withTrace c) hs]
      cases h; rfl

/-- Nor does a step: the fetch reads memory and `pc` alone. -/
theorem step_withTrace {t : State} (h : step s = .next t) : step (s.withTrace c) = .next (t.withTrace c) := by
  have hfetch : (s.withTrace c).fetch = s.fetch := fetch_congr rfl rfl
  by_cases hrun : s.run = .running
  · cases hf : s.fetch with
    | ok i =>
      rw [step_running hrun hf] at h
      rw [step_running (s := s.withTrace c) hrun (hfetch.trans hf)]
      exact exec_withTrace h
    | error k =>
      rw [step_fetchFault hrun hf] at h
      rw [step_fetchFault (s := s.withTrace c) hrun (hfetch.trans hf)]
      cases h; rfl
  · rw [step_stopped hrun] at h
    rw [step_stopped (s := s.withTrace c) hrun]
    cases h; rfl

end Trace

end Sys2Proof.Machine

namespace Sys2Proof.Proofs

open Sys2Proof.Machine Sys2Proof.Claims

/-- Settles O9: the fetch raises it for such a word, and no instruction of the table can raise it. -/
theorem illegalOpcodeExactly : Obligations.IllegalOpcodeExactly := by
  intro s hrun
  constructor
  · intro hw
    exact step_fetchFault hrun (fetch_eq_illegalOpcode_iff.2 ⟨rfl, hw⟩)
  · intro t w hstep hk
    obtain ⟨-, hf | ⟨i, -, hraise⟩⟩ := step_faulted hrun hstep hk
    · exact fetch_eq_illegalOpcode_iff.1 hf
    · cases hraise.cause

/-- Settles O39: a step that ends Faulted is fault entry. -/
theorem faultsArePrecise : Obligations.FaultsArePrecise := by
  intro s t k hrun hstep hk
  exact (step_faulted hrun hstep hk).1

/-- Settles O40, from the cause of the fault. -/
theorem faultMatrix : Obligations.FaultMatrix := by
  intro i s t k hrun h hk
  exact (cause_of_exec_faulted hrun h hk).canRaise_eq_true

/-- Settles O41: the only cause of this fault is such an operand, which is looked at first. -/
theorem invalidDestinationExactly : Obligations.InvalidDestinationExactly := by
  intro i s w hrun
  constructor
  · rintro ⟨t, h, hk⟩
    cases cause_of_exec_faulted hrun h hk with
    | destination a hi ha => exact ⟨a, hi, ha, rfl⟩
  · rintro ⟨a, hi, ha, rfl⟩
    exact ⟨_, exec_of_notRegister hi ha s, rfl⟩

/-- Settles O42: the only cause of this fault is a `pop` from an empty stack, and `ret` is a `halt` there. -/
theorem stackUnderflowOnlyByPop : Obligations.StackUnderflowOnlyByPop := by
  intro s hrun
  refine ⟨fun i t h hk => ?_, fun d hs => exec_pop_of_empty hs,
    fun hs => ⟨s.halt, exec_ret_of_nil hs, rfl⟩⟩
  cases cause_of_exec_faulted hrun h hk with
  | underflow a hi hs => exact ⟨⟨a, hi⟩, hs⟩

/-- Settles O43: the only cause of this fault is a `mod` by zero, and a sound `mod` by zero, in either form,
raises it. -/
theorem divisionByZeroOnlyByMod : Obligations.DivisionByZeroOnlyByMod := by
  intro s hrun
  refine ⟨fun i t h hk => ?_, fun d b vb hb =>
    ⟨exec_mod_of_zero hb (.inl rfl), fun r hr => exec_mod_of_zero hb (.inr ⟨r, rfl, hr⟩)⟩⟩
  cases cause_of_exec_faulted hrun h hk with
  | zeroDivisor a b c hi hc => exact ⟨a, b, c, hi, hc⟩

/-- Settles O45, from the same fact about every instruction. -/
theorem traceDoesNotAffectExecution : Obligations.TraceDoesNotAffectExecution :=
  fun _ _ _ hstep => step_withTrace hstep

end Sys2Proof.Proofs

/-! ## Reset, the loader and the step (70_reset_and_hazards)

The words of a byte sequence, the three answers of the loader, what the reset sequence makes of each, and that every
step answers a next state. Then the statements of 70_reset_and_hazards from these. -/

namespace Sys2Proof

/-! ### Words from bytes (20_memory R34) -/

theorem length_wordsOfBytes : ∀ bs : List Byte, (wordsOfBytes bs).length = bs.length / 2
  | [] => rfl
  | [_] => (Nat.div_eq_of_lt Nat.one_lt_two).symm
  | lo :: hi :: rest => by
    simp only [wordsOfBytes, List.length_cons, length_wordsOfBytes rest]
    omega

/-- Word `i` is made of the bytes `2 i` and `2 i + 1`. -/
theorem getElem?_wordsOfBytes {lo hi : Byte} : ∀ {bs : List Byte} {i : Nat}, bs[2 * i]? = some lo →
    bs[2 * i + 1]? = some hi → (wordsOfBytes bs)[i]? = some (hi ++ lo)
  | [], _, hlo, _ => by cases hlo
  | [_], _, _, hhi => by cases hhi
  | _ :: _ :: _, 0, hlo, hhi => by cases hlo; cases hhi; rfl
  | _ :: _ :: rest, i + 1, hlo, hhi => getElem?_wordsOfBytes (bs := rest) (i := i) hlo hhi

/-- The byte at the even offset is the low half. -/
theorem toNat_append_bytes (hi lo : Byte) : (hi ++ lo : Word).toNat = lo.toNat + 256 * hi.toNat := by
  rw [BitVec.toNat_append, ← Nat.shiftLeft_add_eq_or_of_lt lo.isLt, Nat.shiftLeft_eq]
  omega

end Sys2Proof

namespace Sys2Proof.Machine

/-! ### The loader (R151, R152) -/

section Loader

variable {bytes : List Byte}

theorem load_of_odd (h : bytes.length % 2 = 1) : load bytes = .error (.truncatedImage bytes.length) := if_pos h

theorem load_of_large (heven : bytes.length % 2 = 0) (hgt : 32768 < bytes.length / 2) :
    load bytes = .error (.imageTooLarge bytes.length) := by
  rw [load, if_neg (by omega), if_pos ((imageMaxBytes_lt_iff heven).2 hgt)]

theorem load_of_fits (heven : bytes.length % 2 = 0) (hle : bytes.length / 2 ≤ 32768) :
    load bytes = .ok (Memory.ofWords 0 (wordsOfBytes bytes)) := by
  rw [load, if_neg (by omega), if_neg (fun h => absurd ((imageMaxBytes_lt_iff heven).1 h) (Nat.not_lt.2 hle))]

/-- The loader accepts exactly the images of whole words that fit memory. -/
theorem load_eq_ok_iff {m : Memory} : load bytes = .ok m ↔
    bytes.length % 2 = 0 ∧ bytes.length / 2 ≤ 32768 ∧ m = Memory.ofWords 0 (wordsOfBytes bytes) := by
  rcases Nat.mod_two_eq_zero_or_one bytes.length with heven | hodd
  · rcases Nat.lt_or_ge 32768 (bytes.length / 2) with hgt | hle
    · simp [load_of_large heven hgt, Nat.not_le.2 hgt]
    · simp [load_of_fits heven hle, heven, hle, eq_comm]
  · simp [load_of_odd hodd, hodd]

/-- What the loader answers is in canonical form. -/
theorem wf_of_load {m : Memory} (h : load bytes = .ok m) : m.wf = true := by
  obtain ⟨-, hle, rfl⟩ := load_eq_ok_iff.1 h
  exact Memory.wfFrom_ofWords (by rw [Nat.zero_add, length_wordsOfBytes]; exact hle)

/-- Cell `i` of a loaded image is its word `i`, and 0 beyond the image. -/
theorem read_ofWords_zero (ws : List Word) (i : Nat) : (Memory.ofWords 0 ws).read i = ws[i]?.getD 0 := by
  simpa using Memory.read_ofWords (base := 0) (ws := ws) i

end Loader

/-! ### The reset sequence (R153, R154) -/

section Reset

variable {image : List Byte} {cfg : Config} {regs : Vector Value 8} {input : List Line} {e : InputEnd}
  {room : Option Nat}

theorem construct_of_ok {m : Memory} (h : load image = .ok m) :
    State.construct image cfg regs input e room =
      { mem := m, regs := regs, pc := 0, stack := [], inbuf := [], run := .running, output := [],
        input := input, inputEnd := e, outputRoom := room, cfg := cfg } := by
  rw [State.construct, h]

theorem construct_of_error {k : Fault} (h : load image = .error k) :
    State.construct image cfg regs input e room =
      { mem := [], regs := regs, pc := 0, stack := [], inbuf := [], run := .faulted k, output := [],
        input := input, inputEnd := e, outputRoom := room, cfg := cfg } := by
  rw [State.construct, h]

end Reset

/-! ### Every step has a next state (R162) -/

/-- Every instruction answers a next state: its effect, or fault entry. -/
theorem exists_exec_eq_next (i : Instr) (s : State) : ∃ t, exec i s = .next t := by
  obtain ⟨r, hr, -⟩ := exec_commits i s
  rw [hr]
  cases r with
  | ok t => exact ⟨t, rfl⟩
  | error k => exact ⟨s.raise k, rfl⟩

end Sys2Proof.Machine

namespace Sys2Proof.Proofs

open Sys2Proof.Machine

/-- Settles O12: a stopped machine answers itself, a fault of the fetch is a next state, and so is what an
instruction answers. -/
theorem everyStepAnswersNext : Obligations.EveryStepAnswersNext := by
  intro s
  by_cases hrun : s.run = .running
  · cases hf : s.fetch with
    | ok i => rw [step_running hrun hf]; exact exists_exec_eq_next i s
    | error k => exact ⟨s.raise k, step_fetchFault hrun hf⟩
  · exact ⟨s, step_stopped hrun⟩

/-- Settles O48: memory is what the loader answers, or empty, and the stack is empty. -/
theorem invariantAtConstruction : Obligations.InvariantAtConstruction := by
  intro image cfg regs input e room
  cases h : load image with
  | ok m => rw [construct_of_ok h]; exact ⟨wf_of_load h, fun _ _ => Nat.zero_le _⟩
  | error k => rw [construct_of_error h]; exact ⟨Memory.wf_nil, fun _ _ => Nat.zero_le _⟩

/-- Settles O56, a case of the loader for each clause; the cells are the image's words. -/
theorem loaderRule : Obligations.LoaderRule := by
  intro bytes
  refine ⟨load_of_odd, load_of_large, fun heven hle => ⟨_, load_of_fits heven hle, ?_, ?_⟩⟩
  · intro i lo hi hlo hhi
    rw [read_ofWords_zero, getElem?_wordsOfBytes hlo hhi, Option.getD_some, toNat_append_bytes]
  · intro i hi
    rw [read_ofWords_zero, List.getElem?_eq_none (by rw [length_wordsOfBytes]; exact hi), Option.getD_none]

/-- Settles O57: the reset sequence around an accepted image, which the empty image is. -/
theorem resetSequence : Obligations.ResetSequence :=
  ⟨fun _ _ _ _ _ _ _ h => construct_of_ok h, rfl, Memory.read_nil,
    fun r => Vector.getElem_replicate r.isLt, rfl, rfl⟩

/-- Settles O58: the constructed state is Faulted, so every run from it stays. -/
theorem loaderErrorTakesNoStep : Obligations.LoaderErrorTakesNoStep := by
  intro image cfg regs input e room k n h
  have hrun : (State.construct image cfg regs input e room).run ≠ .running := by
    rw [construct_of_error h]
    nofun
  rw [runFor_fixed (step_stopped hrun), construct_of_error h]
  exact ⟨rfl, rfl, rfl⟩

end Sys2Proof.Proofs
